-- ==== Sys2Proof/Word.lean ====
section
/-! DEFINITION. The word types of the CHIP-8 interpreter core (00_scope.md R1, R4). -/

namespace Sys2Proof

/-- The unit of memory and of V0..VF, DT, ST: 8 bits, unsigned (R1, R4). -/
abbrev Byte := BitVec 8

/-- The width of I, PC, stack entries and instruction words: 16 bits, unsigned (R1, R45). -/
abbrev Word := BitVec 16

/-- An absolute 12-bit address operand nnn (R46). -/
abbrev Addr12 := BitVec 12

/-- The index of a general register, 0x0 to 0xF (R10). -/
abbrev Reg := Fin 16

/-- The logical index of a key, 0x0 to 0xF (R19). -/
abbrev Key := Fin 16

end Sys2Proof
end

