-- ==== Sys2Proof/Syntax.lean ====
section
/-! DEFINITION. The 35 instructions of spec/opcode_table.json, one constructor per row, in the table's order. -/

namespace Sys2Proof

/-- One instruction with its operands (R46: x, y register indices, n a count, nn and nnn immediates). The unassigned words of
30_encoding.md R54 are no instruction: decode names them apart. -/
inductive Instr where
  /-- `SYS nnn` (0nnn but 00E0 and 00EE), R62. -/
  | sys (nnn : Addr12)
  /-- `CLS` (00E0), R115. -/
  | cls
  /-- `RET` (00EE), R63. -/
  | ret
  /-- `JP nnn` (1nnn), R64. -/
  | jp (nnn : Addr12)
  /-- `CALL nnn` (2nnn), R65. -/
  | call (nnn : Addr12)
  /-- `SE Vx, nn` (3xnn), R66. -/
  | seImm (x : Reg) (nn : Byte)
  /-- `SNE Vx, nn` (4xnn), R67. -/
  | sneImm (x : Reg) (nn : Byte)
  /-- `SE Vx, Vy` (5xyn, n ignored), R68. -/
  | seReg (x y : Reg)
  /-- `LD Vx, nn` (6xnn), R81. -/
  | ldImm (x : Reg) (nn : Byte)
  /-- `ADD Vx, nn` (7xnn), R82. -/
  | addImm (x : Reg) (nn : Byte)
  /-- `LD Vx, Vy` (8xy0), R83. -/
  | ldReg (x y : Reg)
  /-- `OR Vx, Vy` (8xy1), R84. -/
  | orReg (x y : Reg)
  /-- `AND Vx, Vy` (8xy2), R85. -/
  | andReg (x y : Reg)
  /-- `XOR Vx, Vy` (8xy3), R86. -/
  | xorReg (x y : Reg)
  /-- `ADD Vx, Vy` (8xy4), R87. -/
  | addReg (x y : Reg)
  /-- `SUB Vx, Vy` (8xy5), R88. -/
  | subReg (x y : Reg)
  /-- `SHR Vx, Vy` (8xy6), R89. -/
  | shr (x y : Reg)
  /-- `SUBN Vx, Vy` (8xy7), R90. -/
  | subn (x y : Reg)
  /-- `SHL Vx, Vy` (8xyE), R91. -/
  | shl (x y : Reg)
  /-- `SNE Vx, Vy` (9xyn, n ignored), R69. -/
  | sneReg (x y : Reg)
  /-- `LD I, nnn` (Annn), R100. -/
  | ldI (nnn : Addr12)
  /-- `JP V0, nnn` (Bnnn), R70. -/
  | jpV0 (nnn : Addr12)
  /-- `RND Vx, nn` (Cxnn), R93. -/
  | rnd (x : Reg) (nn : Byte)
  /-- `DRW Vx, Vy, n` (Dxyn), R116. -/
  | drw (x y : Reg) (n : Fin 16)
  /-- `SKP Vx` (Ex9E), R125. -/
  | skp (x : Reg)
  /-- `SKNP Vx` (ExA1), R126. -/
  | sknp (x : Reg)
  /-- `LD Vx, DT` (Fx07), R127. -/
  | ldVxDT (x : Reg)
  /-- `LD Vx, K` (Fx0A), R130. -/
  | ldVxK (x : Reg)
  /-- `LD DT, Vx` (Fx15), R128. -/
  | ldDTVx (x : Reg)
  /-- `LD ST, Vx` (Fx18), R129. -/
  | ldSTVx (x : Reg)
  /-- `ADD I, Vx` (Fx1E), R101. -/
  | addI (x : Reg)
  /-- `LD F, Vx` (Fx29), R102. -/
  | ldF (x : Reg)
  /-- `LD B, Vx` (Fx33), R103. -/
  | ldB (x : Reg)
  /-- `LD [I], Vx` (Fx55), R104. -/
  | storeRegs (x : Reg)
  /-- `LD Vx, [I]` (Fx65), R105. -/
  | loadRegs (x : Reg)
deriving DecidableEq, Repr

end Sys2Proof
end

