-- ==== Sys2Proof/Decode.lean ====
section
/-! DEFINITION. 30_encoding.md: the fields of an instruction word, the decoder and the encoder. Decoding is total (R55): a word is
an instruction or one of the unassigned words of R54, named by its group and its sub-opcode. The bit positions are those of R46
and opcode_table.json (entry 14). -/

namespace Sys2Proof

/-- `w[hi:lo]`: the unsigned value of bits hi down to lo inclusive (R4). -/
def bits (w : Word) (hi lo : Nat) : Nat := (w.toNat / 2 ^ lo) % 2 ^ (hi + 1 - lo)

/-- `op = w[15:12]`, the primary group (R46, R48). -/
def opField (w : Word) : Nat := bits w 15 12
/-- `x = w[11:8]` (R46). -/
def xField (w : Word) : Reg := Fin.ofNat 16 (bits w 11 8)
/-- `y = w[7:4]` (R46). -/
def yField (w : Word) : Reg := Fin.ofNat 16 (bits w 7 4)
/-- `n = w[3:0]` (R46). -/
def nField (w : Word) : Fin 16 := Fin.ofNat 16 (bits w 3 0)
/-- `nn = w[7:0]` (R46). -/
def nnField (w : Word) : Byte := BitVec.ofNat 8 (bits w 7 0)
/-- `nnn = w[11:0]` (R46). -/
def nnnField (w : Word) : Addr12 := BitVec.ofNat 12 (bits w 11 0)

/-- The words R54 leaves unassigned, each named by its group and the field the group dispatches on. They execute as no-ops. -/
inductive Unassigned where
  /-- Group 8, n in 0x8..0xD or 0xF (R50). -/
  | group8 (n : Fin 16)
  /-- Group E, nn neither 0x9E nor 0xA1 (R51). -/
  | groupE (nn : Byte)
  /-- Group F, nn not in the table of R52. -/
  | groupF (nn : Byte)
deriving DecidableEq, Repr

/-- What a word decodes to (R55). -/
inductive Decoded where
  | instr (i : Instr)
  | unassigned (u : Unassigned)
deriving DecidableEq, Repr

/-- Group 0 dispatches on the whole word (R49). -/
def decodeGroup0 (w : Word) : Decoded :=
  if w = 0x00E0 then .instr .cls
  else if w = 0x00EE then .instr .ret
  else .instr (.sys (nnnField w))

/-- Group 8 dispatches on n (R50). -/
def decodeGroup8 (w : Word) : Decoded :=
  let x := xField w
  let y := yField w
  match (nField w).val with
  | 0x0 => .instr (.ldReg x y)
  | 0x1 => .instr (.orReg x y)
  | 0x2 => .instr (.andReg x y)
  | 0x3 => .instr (.xorReg x y)
  | 0x4 => .instr (.addReg x y)
  | 0x5 => .instr (.subReg x y)
  | 0x6 => .instr (.shr x y)
  | 0x7 => .instr (.subn x y)
  | 0xE => .instr (.shl x y)
  | _ => .unassigned (.group8 (nField w))

/-- Group E dispatches on nn (R51). -/
def decodeGroupE (w : Word) : Decoded :=
  match (nnField w).toNat with
  | 0x9E => .instr (.skp (xField w))
  | 0xA1 => .instr (.sknp (xField w))
  | _ => .unassigned (.groupE (nnField w))

/-- Group F dispatches on nn (R52). -/
def decodeGroupF (w : Word) : Decoded :=
  let x := xField w
  match (nnField w).toNat with
  | 0x07 => .instr (.ldVxDT x)
  | 0x0A => .instr (.ldVxK x)
  | 0x15 => .instr (.ldDTVx x)
  | 0x18 => .instr (.ldSTVx x)
  | 0x1E => .instr (.addI x)
  | 0x29 => .instr (.ldF x)
  | 0x33 => .instr (.ldB x)
  | 0x55 => .instr (.storeRegs x)
  | 0x65 => .instr (.loadRegs x)
  | _ => .unassigned (.groupF (nnField w))

/-- The decoder: the primary group selects (R48), groups 0, 8, E and F dispatch further (R49..R52), groups 5 and 9 ignore n (R53).
`opField w` is below 16, so the last arm is group F. -/
def decode (w : Word) : Decoded :=
  match opField w with
  | 0x0 => decodeGroup0 w
  | 0x1 => .instr (.jp (nnnField w))
  | 0x2 => .instr (.call (nnnField w))
  | 0x3 => .instr (.seImm (xField w) (nnField w))
  | 0x4 => .instr (.sneImm (xField w) (nnField w))
  | 0x5 => .instr (.seReg (xField w) (yField w))
  | 0x6 => .instr (.ldImm (xField w) (nnField w))
  | 0x7 => .instr (.addImm (xField w) (nnField w))
  | 0x8 => decodeGroup8 w
  | 0x9 => .instr (.sneReg (xField w) (yField w))
  | 0xA => .instr (.ldI (nnnField w))
  | 0xB => .instr (.jpV0 (nnnField w))
  | 0xC => .instr (.rnd (xField w) (nnField w))
  | 0xD => .instr (.drw (xField w) (yField w) (nField w))
  | 0xE => decodeGroupE w
  | _ => decodeGroupF w

/-- Two bytes in big-endian order, the high byte first: `MemRead(PC, 1) ++ MemRead(PC + 1, 1)` (R36). -/
def wordOfBytes (hi lo : Byte) : Word := BitVec.ofNat 16 (hi.toNat * 256 + lo.toNat)

/-- The byte of a word that lies at the lower address (R36). -/
def highByte (w : Word) : Byte := BitVec.ofNat 8 (w.toNat / 256)
/-- The byte of a word that lies at the higher address (R36). -/
def lowByte (w : Word) : Byte := BitVec.ofNat 8 w.toNat

/-- What the decoder reads from bytes: an instruction and the rest, or the reason there is none. -/
inductive DecodedBytes where
  | instr (i : Instr) (rest : List Byte)
  /-- An unassigned word of R54: a no-op, and no instruction of the table. -/
  | unassigned (u : Unassigned) (rest : List Byte)
  /-- Fewer than the two bytes every instruction has (R45). -/
  | tooShort
deriving DecidableEq, Repr

/-- The decoder on bytes, total on any list. -/
def decodeBytes : List Byte → DecodedBytes
  | hi :: lo :: rest =>
    match decode (wordOfBytes hi lo) with
    | .instr i => .instr i rest
    | .unassigned u => .unassigned u rest
  | [_] => .tooShort
  | [] => .tooShort

/-- The word `op nnn` (R46: one hex digit each). -/
def wordNnn (op : Nat) (nnn : Addr12) : Word := BitVec.ofNat 16 (op * 4096 + nnn.toNat)
/-- The word `op x nn` (R46). -/
def wordXnn (op : Nat) (x : Reg) (nn : Byte) : Word := BitVec.ofNat 16 (op * 4096 + x.val * 256 + nn.toNat)
/-- The word `op x y n` (R46). -/
def wordXyn (op : Nat) (x y : Reg) (n : Fin 16) : Word := BitVec.ofNat 16 (op * 4096 + x.val * 256 + y.val * 16 + n.val)

/-- The word of an instruction (R57 and opcode_table.json; groups 5 and 9 assemble with n = 0). -/
def encode : Instr → Word
  | .sys nnn => wordNnn 0x0 nnn
  | .cls => 0x00E0
  | .ret => 0x00EE
  | .jp nnn => wordNnn 0x1 nnn
  | .call nnn => wordNnn 0x2 nnn
  | .seImm x nn => wordXnn 0x3 x nn
  | .sneImm x nn => wordXnn 0x4 x nn
  | .seReg x y => wordXyn 0x5 x y 0
  | .ldImm x nn => wordXnn 0x6 x nn
  | .addImm x nn => wordXnn 0x7 x nn
  | .ldReg x y => wordXyn 0x8 x y 0x0
  | .orReg x y => wordXyn 0x8 x y 0x1
  | .andReg x y => wordXyn 0x8 x y 0x2
  | .xorReg x y => wordXyn 0x8 x y 0x3
  | .addReg x y => wordXyn 0x8 x y 0x4
  | .subReg x y => wordXyn 0x8 x y 0x5
  | .shr x y => wordXyn 0x8 x y 0x6
  | .subn x y => wordXyn 0x8 x y 0x7
  | .shl x y => wordXyn 0x8 x y 0xE
  | .sneReg x y => wordXyn 0x9 x y 0
  | .ldI nnn => wordNnn 0xA nnn
  | .jpV0 nnn => wordNnn 0xB nnn
  | .rnd x nn => wordXnn 0xC x nn
  | .drw x y n => wordXyn 0xD x y n
  | .skp x => wordXnn 0xE x 0x9E
  | .sknp x => wordXnn 0xE x 0xA1
  | .ldVxDT x => wordXnn 0xF x 0x07
  | .ldVxK x => wordXnn 0xF x 0x0A
  | .ldDTVx x => wordXnn 0xF x 0x15
  | .ldSTVx x => wordXnn 0xF x 0x18
  | .addI x => wordXnn 0xF x 0x1E
  | .ldF x => wordXnn 0xF x 0x29
  | .ldB x => wordXnn 0xF x 0x33
  | .storeRegs x => wordXnn 0xF x 0x55
  | .loadRegs x => wordXnn 0xF x 0x65

/-- The bytes of an instruction in memory order (R36). -/
def encodeBytes (i : Instr) : List Byte := [highByte (encode i), lowByte (encode i)]

/-- The word whose `nbits` low bits are those of `w`, every higher bit 0: the layout of a table row (one 16-bit word, R45). -/
def tableWord (nbits w : Nat) : Word := BitVec.ofNat 16 (w % 2 ^ nbits)

/-- The instruction the decoder reads from a table word laid out in memory order; none for an unassigned word. -/
def decodeTableWord (nbits w : Nat) : Option Instr :=
  match decodeBytes [highByte (tableWord nbits w), lowByte (tableWord nbits w)] with
  | .instr i _ => some i
  | .unassigned _ _ => none
  | .tooShort => none

end Sys2Proof
end

