-- ==== Sys2Proof/Config.lean ====
section
/-! DEFINITION. The implementation parameters of 00_scope.md R2 and the free values of R3.

R2 fixes the parameters per run and forbids a step to change them. The interface gives a step nothing but the state, so the
parameters are one record that State carries unchanged (entry 5). P_FONT is used by reset alone and is an input of `boot`
(entry 7). What R2 leaves OPEN and what R3 calls a draw are constants without a body: nothing can be proved of their values. -/

namespace Sys2Proof

/-- `P_SHIFT_SOURCE`: the register SHR and SHL shift (R89, R91). -/
inductive ShiftSource where
  | vy
  | vx
deriving DecidableEq, Repr

/-- `P_KEYWAIT_VALUE`: what a key-wait writes on resume (R131). -/
inductive KeyWaitValue where
  | logicalIndex
  | scanCode
deriving DecidableEq, Repr

/-- `P_DRAW_COORD`: what DRW does with a pixel outside the plane (R116, R117). -/
inductive DrawCoord where
  | wrap
  | fault
deriving DecidableEq, Repr

/-- The parameters of R2 that a step consults. -/
structure Params where
  /-- `P_STACK_CAPACITY`; `none` is `unbounded`. -/
  stackCapacity : Option Nat
  /-- `P_SHIFT_SOURCE`. -/
  shiftSource : ShiftSource
  /-- `P_LOADSTORE_INC_I`. -/
  loadStoreIncI : Bool
  /-- `P_KEYWAIT_VALUE`. -/
  keyWaitValue : KeyWaitValue
  /-- `P_SCANCODE`: the scan code of each key index. -/
  scanCode : Vector Byte 16
  /-- `P_DRAW_COORD`. -/
  drawCoord : DrawCoord
deriving DecidableEq, Repr

/-- The value `P_LOADSTORE_INC_I` has after reset. R2: OPEN, no default (D4). Free value (entry 6). -/
opaque Config.loadStoreIncI : Bool

/-- The table `P_SCANCODE` has after reset. R2: OPEN (D5). Free value (entry 6). -/
opaque Config.scanCode : Vector Byte 16

/-- The random byte of the k-th draw (R3, R93: "under no law"). Free value (entry 3). -/
opaque Config.randomByte : Nat → Byte

/-- The number that settles which element of P resumes a key-wait at the k-th draw (R3, R131). Free value (entry 4). -/
opaque Config.keyChoice : Nat → Nat

end Sys2Proof
end

