-- ==== Sys2Proof/Machine/Defaults.lean ====
section
/-! DEFINITION. The reset contents of memory and the parameters a run has when nothing else is chosen: 20_memory.md R34, R35 and
00_scope.md R2. -/

namespace Sys2Proof.Machine

/-- The addresses of memory are those below this number (R1, R30). -/
abbrev memorySize : Nat := 4096

/-- Where the program image is loaded and where execution starts (R1, R173). -/
def programBase : Word := 0x200

/-- The default of `P_FONT`, glyph by glyph (table of R35). -/
def fontBytes : List Byte :=
  [0xF0, 0x90, 0x90, 0x90, 0xF0] ++ [0x20, 0x60, 0x20, 0x20, 0x70] ++
  [0xF0, 0x10, 0xF0, 0x80, 0xF0] ++ [0xF0, 0x10, 0xF0, 0x10, 0xF0] ++
  [0x90, 0x90, 0xF0, 0x10, 0x10] ++ [0xF0, 0x80, 0xF0, 0x10, 0xF0] ++
  [0xF0, 0x80, 0xF0, 0x90, 0xF0] ++ [0xF0, 0x10, 0x20, 0x40, 0x40] ++
  [0xF0, 0x90, 0xF0, 0x90, 0xF0] ++ [0xF0, 0x90, 0xF0, 0x10, 0xF0] ++
  [0xF0, 0x90, 0xF0, 0x90, 0x90] ++ [0xE0, 0x90, 0xE0, 0x90, 0xE0] ++
  [0xF0, 0x80, 0x80, 0x80, 0xF0] ++ [0xE0, 0x90, 0x90, 0x90, 0xE0] ++
  [0xF0, 0x80, 0xF0, 0x80, 0xF0] ++ [0xF0, 0x80, 0xF0, 0x80, 0x80]

/-- The default of `P_FONT` as the 80 bytes it is (R2, R35). -/
def defaultFont : Vector Byte 80 := ⟨fontBytes.toArray, rfl⟩

/-- What an address that memory does not list reads as: its reset contents with the default font and an empty program image,
that is the font at 0x000..0x04F and 0x00 everywhere else (R34, R172; entry 7). -/
def unlistedByte (a : Nat) : Byte := fontBytes.getD a 0

/-- The parameters of `State.reset`: the defaults of R2, and the constants without a body for the two OPEN ones (entries 5, 6). -/
def resetParams : Params where
  stackCapacity := none
  shiftSource := .vy
  loadStoreIncI := Config.loadStoreIncI
  keyWaitValue := .logicalIndex
  scanCode := Config.scanCode
  drawCoord := .wrap

end Sys2Proof.Machine
end

