-- ==== Sys2Proof/Machine/State.lean ====
section
/-! DEFINITION. The machine state of 10_state.md, all of it, as plain data, the reasons a run stops and the state after reset. -/

namespace Sys2Proof.Machine

/-- The 4096-byte memory (R30) as the cells that differ from their reset contents: addresses strictly rising, below 4096, and no
cell equal to what an unlisted address reads as (`Memory.wf`). -/
abbrev Memory := List Host.Cell

/-- The 64 x 32 plane (R18): one word of 64 bits per row, row 0 first, bit c of row r being `FB[r][c]` (entry 12). -/
abbrev Framebuffer := Vector (BitVec 64) 32

/-- What AddressOutOfRange records (R141, column "detail recorded"). -/
inductive OutOfRange where
  /-- The lowest offending memory address. -/
  | address (addr : Nat)
  /-- The register value that names no key. -/
  | key (value : Byte)
  /-- The unreduced (column, row) of the offending pixel. -/
  | pixel (column row : Nat)
deriving DecidableEq, Repr

/-- The fatal conditions an interpreter step can raise (R141). -/
inductive Fatal where
  | stackUnderflow
  | addressOutOfRange (detail : OutOfRange)
  | stackOverflow
deriving DecidableEq, Repr

/-- The halt record (R141, R143): Quit records nothing, a fatal condition its reason with its detail and the address `a` the
instruction was fetched from. The numeric code is `Halt.code`. -/
inductive Halt where
  | quit
  | fatal (reason : Fatal) (a : Word)
deriving DecidableEq, Repr

/-- The interpreter status (R20). -/
inductive Status where
  /-- After reset, before the first fetch. -/
  | loaded
  /-- The steady-state loop. -/
  | running
  /-- Inside LD Vx,K: destination register and the keys pressed since the wait began, ascending and without repeats (entry 11). -/
  | waiting (x : Reg) (pressed : List Key)
  /-- Final. -/
  | halted (h : Halt)
deriving DecidableEq, Repr

/-- The named states of a key in a key event (R152). -/
inductive KeyEdge where
  | pressed
  | released
deriving DecidableEq, Repr

/-- Whose step comes next (R149, R150): the interpreter's (R60, R131), the timer agent's (R151), the input agent's (R152) or the
stop step (R153). -/
inductive Turn where
  | interpreter
  | tick
  | keyEvent (k : Key) (p : KeyEdge)
  | stop
deriving DecidableEq, Repr

/-- The whole machine state (10_state.md; R22 says there is no other). -/
structure State where
  /-- V0..VF (R10); V[15] is also the flag (R11). -/
  v : Vector Byte 16
  /-- The index register I (R12). -/
  i : Word
  /-- The program counter (R13). -/
  pc : Word
  /-- The call stack, oldest entry first as the spec writes it (R14). SP is its length (R15). -/
  stack : List Word
  /-- The delay timer DT (R16). -/
  dt : Byte
  /-- The sound timer ST (R17). -/
  st : Byte
  /-- The framebuffer FB (R18). -/
  fb : Framebuffer
  /-- The input latch KEY, true = pressed (R19). -/
  keys : Vector Bool 16
  /-- The interpreter status with the key-wait and halt records (R20). -/
  status : Status
  /-- The stop signal (R21). -/
  stop : Bool
  /-- Memory (R30). -/
  mem : Memory
  /-- How many display strobes were signalled since reset (R156; entry 10). -/
  strobes : Nat
  /-- The parameters of the run (R2; entry 5). No step changes them. -/
  params : Params
  /-- The model's own: the turns to come, next first; when it is empty the interpreter moves (R150; entry 1). -/
  schedule : List Turn
  /-- The model's own: how many free draws were taken (R3; entries 3, 4). -/
  draws : Nat
deriving DecidableEq, Repr

/-- Why `step` answers no next state. Every instruction's meaning answers a next state; a fatal condition is a next state whose
status is Halted (R143). -/
inductive Fault where
  /-- Raised by `step` alone, in every state whose status is Halted: no agent takes a step there (R145). Safe: the machine stops
  too (entry 8). -/
  | halted (h : Halt)
deriving DecidableEq, Repr

/-- Why the model gives an instruction no meaning. -/
inductive Refusal where
  /-- Raised by an arm of `exec` whose instruction has no meaning yet (none at present). Safe: nothing is claimed of the run. -/
  | notModelled (mnemonic : String)
deriving DecidableEq, Repr

/-- The program image reset is given (R170): absent, unreadable, or its bytes. -/
inductive Image where
  | absent
  | unreadable
  | bytes (p : List Byte)
deriving DecidableEq, Repr

/-- The causes of LoadError (R147, R171). -/
inductive LoadError where
  | absent
  | unreadable
  | oversized
deriving DecidableEq, Repr

/-- The state right after reset (R24, R172), with an empty program image, which R171 accepts. A program comes in by `boot`
(R170; entry 9). -/
def State.reset : State where
  v := Vector.replicate 16 0
  i := 0
  pc := programBase
  stack := []
  dt := 0
  st := 0
  fb := Vector.replicate 32 0
  keys := Vector.replicate 16 false
  status := .loaded
  stop := false
  mem := []
  strobes := 0
  params := resetParams
  schedule := []
  draws := 0

end Sys2Proof.Machine
end

