-- ==== Sys2Proof/Machine/Ops.lean ====
section
/-! DEFINITION. The shared operations over memory, registers, the program counter, the call stack and the framebuffer
(00_scope.md R5), and entering a fault (60_exceptions.md R143). -/

namespace Sys2Proof.Machine

/-! ### Memory -/

/-- One byte of memory: the listed one, else the reset contents (R39). Who reads checks the address first (`firstBad`). -/
def Memory.read : Memory → Nat → Byte
  | [], a => unlistedByte a
  | (b, x) :: rest, a => if b = a then x else Memory.read rest a

/-- The cells with `(a, x)` in its place by address. -/
def Memory.put : Memory → Nat → Byte → Memory
  | [], a, x => [(a, x)]
  | (b, y) :: rest, a, x =>
    if a < b then (a, x) :: (b, y) :: rest
    else if a = b then (a, x) :: rest
    else (b, y) :: Memory.put rest a x

/-- The cells without any at `a`. -/
def Memory.erase : Memory → Nat → Memory
  | [], _ => []
  | (b, y) :: rest, a => if b = a then Memory.erase rest a else (b, y) :: Memory.erase rest a

/-- Write one byte and keep the canonical form: writing the reset contents takes the cell out. No cell exists above 0xFFF. -/
def Memory.write (m : Memory) (a : Nat) (x : Byte) : Memory :=
  if a < memorySize then
    if x = unlistedByte a then m.erase a else m.put a x
  else m

/-- The canonical form from address `lo` on. -/
def Memory.wfFrom : Nat → Memory → Bool
  | _, [] => true
  | lo, (a, x) :: rest =>
    decide (lo ≤ a) && decide (a < memorySize) && decide (x ≠ unlistedByte a) && Memory.wfFrom (a + 1) rest

/-- The canonical form: addresses strictly rising and below 4096, no cell equal to what an unlisted address reads as. -/
def Memory.wf (m : Memory) : Bool := Memory.wfFrom 0 m

/-- `n` bytes read one at a time at ascending addresses from `a` (R32, R106). -/
def Memory.readList (m : Memory) (a : Nat) : Nat → List Byte
  | 0 => []
  | n + 1 => m.read a :: Memory.readList m (a + 1) n

/-- Bytes written one at a time at ascending addresses from `a` (R32, R36, R106). -/
def Memory.writeList (m : Memory) (a : Nat) : List Byte → Memory
  | [] => m
  | x :: xs => Memory.writeList (m.write a x) (a + 1) xs

/-- The check of an access to `len` bytes from `lo`: the lowest address of the range above 0xFFF, if there is one (R33;
`first_bad` of 43_index_memory.md). -/
def firstBad (lo len : Nat) : Option Nat :=
  if 0 < len ∧ 0xFFF < lo + len - 1 then some (max lo 0x1000) else none

/-! ### Registers -/

/-- `V[x]` (R5). -/
def State.reg (s : State) (x : Reg) : Byte := s.v[x]

/-- `V[x] <- b` (R5). No register is hardwired (R10). -/
def State.setReg (s : State) (x : Reg) (b : Byte) : State := { s with v := s.v.set x b }

/-- Consecutive registers from number `k` on, in ascending order (R105). -/
def State.setRegs (s : State) (k : Nat) : List Byte → State
  | [] => s
  | b :: bs => State.setRegs (s.setReg (Fin.ofNat 16 k) b) (k + 1) bs

/-- V0..Vx, in ascending order (R104). -/
def State.regsUpTo (s : State) (x : Reg) : List Byte := s.v.toList.take (x.val + 1)

/-- `I <- w` (R5, R12). -/
def State.setI (s : State) (w : Word) : State := { s with i := w }

/-- `DT <- b` (R5, R16). -/
def State.setDT (s : State) (b : Byte) : State := { s with dt := b }

/-- `ST <- b` (R5, R17). -/
def State.setST (s : State) (b : Byte) : State := { s with st := b }

/-! ### Program counter, stack and fault entry -/

/-- `PC <- w` (R5, R13). -/
def State.setPc (s : State) (w : Word) : State := { s with pc := w }

/-- `skip`: `PC <- PC + 2`, modulo 65536 (R5, R13). -/
def State.skip (s : State) : State := s.setPc (s.pc + 2)

/-- `skip` when the condition holds (R66..R69, R125, R126). -/
def State.skipIf (s : State) (c : Bool) : State := if c then s.skip else s

/-- SP, the number of entries of the call stack (R15). -/
def State.sp (s : State) : Nat := s.stack.length

/-- `Push(w)` (R14). -/
def State.push (s : State) (w : Word) : State := { s with stack := s.stack ++ [w] }

/-- `Pop()`: the most recent entry and the state without it; none on the empty stack (R14). -/
def State.pop (s : State) : Option (Word × State) :=
  match s.stack.getLast? with
  | none => none
  | some w => some (w, { s with stack := s.stack.dropLast })

/-- The address `a` of the instruction in execution: PC already holds `a + 2` modulo 65536 (R6). -/
def State.instrAddr (s : State) : Word := s.pc - 2

/-- Fault entry (R143) for the instruction at `a`: the status becomes Halted with the record, and nothing else changes. There is
no return from it (R145). -/
def State.haltAt (s : State) (a : Word) (r : Fatal) : State := { s with status := .halted (.fatal r a) }

/-- `raise`, for an instruction in execution (R5, R143, R144). -/
def raise (r : Fatal) (s : State) : Host.Outcome State Fault Refusal := .next (s.haltAt s.instrAddr r)

/-! ### Framebuffer -/

/-- `FB[r][c]` (R5, R18). -/
def pixel (fb : Framebuffer) (r : Fin 32) (c : Fin 64) : Bool := fb[r].getLsbD c.val

/-- `FB[r][c] <- FB[r][c] ^ 1` (R116). -/
def togglePixel (fb : Framebuffer) (r : Fin 32) (c : Fin 64) : Framebuffer :=
  fb.set r (fb[r] ^^^ BitVec.twoPow 64 c.val)

/-- The columns of a sprite byte's set bits, leftmost first: column `cx + c` for bit `7 - c` (R116). -/
def rowPixels (cx row : Nat) (b : Byte) : List (Nat × Nat) :=
  ((List.range 8).filter fun c => b.getLsbD (7 - c)).map fun c => (cx + c, row)

/-- The unreduced (column, row) of every set bit of a sprite, in the order of R116's loops: top row first, then left to right. -/
def spritePixels (cx : Nat) : Nat → List Byte → List (Nat × Nat)
  | _, [] => []
  | row, b :: bs => rowPixels cx row b ++ spritePixels cx (row + 1) bs

/-- The (row, column) of the plane an unreduced (column, row) wraps to (R116: per pixel). -/
def wrapPixel (p : Nat × Nat) : Fin 32 × Fin 64 := (Fin.ofNat 32 p.2, Fin.ofNat 64 p.1)

/-- The inner loops of R116 over the set bits: each toggles the pixel at the wrapped place, and the collision is 1 once any
toggled pixel was 1. -/
def drawPixels : List (Nat × Nat) → Framebuffer → Bool → Framebuffer × Bool
  | [], fb, collision => (fb, collision)
  | p :: ps, fb, collision =>
    drawPixels ps (togglePixel fb (wrapPixel p).1 (wrapPixel p).2) (collision || pixel fb (wrapPixel p).1 (wrapPixel p).2)

/-- The check of R117: with `P_DRAW_COORD = Fault`, the first set bit whose unreduced column exceeds 63 or whose unreduced row
exceeds 31; with `Wrap` never any. -/
def offScreen (mode : DrawCoord) (ps : List (Nat × Nat)) : Option (Nat × Nat) :=
  match mode with
  | .wrap => none
  | .fault => ps.find? fun p => decide (63 < p.1) || decide (31 < p.2)

/-- The display strobe (R156; entry 10). -/
def State.strobe (s : State) : State := { s with strobes := s.strobes + 1 }

/-! ### Sets of keys -/

/-- `P ∪ {k}` for an ascending list without repeats (R152; entry 11). -/
def insertKey (k : Key) : List Key → List Key
  | [] => [k]
  | q :: qs => if k < q then k :: q :: qs else if k = q then q :: qs else q :: insertKey k qs

/-- The element of P that the number `c` settles; with one element there is nothing to settle (R131; entry 4). -/
def chooseKey (c : Nat) : List Key → Option Key
  | [] => none
  | [k] => some k
  | k :: k' :: ks => (k :: k' :: ks)[c % (ks.length + 2)]?

end Sys2Proof.Machine
end

