-- ==== Sys2Proof/Machine/Agents.lean ====
section
/-! DEFINITION. The steps of the timer and the input agent: 60_exceptions.md R151, R152, R153. Each is taken in a status that is not
Halted, which `step` sees to. -/

namespace Sys2Proof.Machine

/-- One tick of one counter: never below 0 (R16, R151). -/
def tickDown (b : Byte) : Byte := if b = 0 then 0 else b - 1

/-- The tick step: both timers at once (R151). -/
def tickStep (s : State) : State := { s with dt := tickDown s.dt, st := tickDown s.st }

/-- The status after key `k` goes from released to pressed: a key-wait records it (R132, R152). -/
def notePress (k : Key) : Status → Status
  | .waiting x pressed => .waiting x (insertKey k pressed)
  | .loaded => .loaded
  | .running => .running
  | .halted h => .halted h

/-- The key-event step `KeyEvent(k, p)` (R152). -/
def keyStep (k : Key) (p : KeyEdge) (s : State) : State :=
  match p with
  | .released => { s with keys := s.keys.set k false }
  | .pressed =>
    { s with
      keys := s.keys.set k true
      status := if s.keys[k] then s.status else notePress k s.status }

/-- The stop step (R153). -/
def stopStep (s : State) : State := { s with stop := true, status := .halted .quit }

end Sys2Proof.Machine
end

