-- ==== Sys2Proof/Machine/Flags.lean ====
section
/-! DEFINITION. The flag computations of 42_alu.md R80, R87..R91 and 44_display.md R116, and the order in which a result and its
flag are written. A flag is the byte 1 or 0 (R80). -/

namespace Sys2Proof.Machine

/-- The index of the flag register VF (R11). -/
def flagReg : Reg := 15

/-- A condition as the flag value 1 or 0 (R80). -/
def flagOf (c : Bool) : Byte := if c then 1 else 0

/-- Carry of an addition: 1 iff the 9-bit sum exceeds 255 (R87). -/
def carryFlag (a b : Byte) : Byte := flagOf (decide (255 < a.toNat + b.toNat))

/-- NOT borrow of `minuend - subtrahend`: 0 iff the subtrahend is greater (R88, R90). -/
def notBorrowFlag (minuend subtrahend : Byte) : Byte := flagOf (!decide (minuend.toNat < subtrahend.toNat))

/-- The bit a right shift shifts out: bit 0 (R89). -/
def shrFlag (s : Byte) : Byte := flagOf (s.getLsbD 0)

/-- The bit a left shift shifts out: bit 7 (R91). -/
def shlFlag (s : Byte) : Byte := flagOf (s.getLsbD 7)

/-- `V[x] <- result; VF <- flag`, in this order, so that the flag stays when x = F (R11, R80). -/
def State.setRegFlag (s : State) (x : Reg) (result flag : Byte) : State := (s.setReg x result).setReg flagReg flag

end Sys2Proof.Machine
end

