-- ==== Sys2Proof/Machine/Operands.lean ====
section
/-! DEFINITION. The operand forms: immediates, the shifted operand, key indices, addresses through I. -/

namespace Sys2Proof.Machine

/-- `zext_16(nnn)` (R47). -/
def zextNnn (nnn : Addr12) : Word := BitVec.ofNat 16 nnn.toNat

/-- `zext_16` of a byte (R4, R70, R101). -/
def zextByte (b : Byte) : Word := BitVec.ofNat 16 b.toNat

/-- The operand `s` of SHR and SHL: V[y] or V[x], by `P_SHIFT_SOURCE` (R89, R91). -/
def shiftOperand (s : State) (x y : Reg) : Byte :=
  match s.params.shiftSource with
  | .vy => s.reg y
  | .vx => s.reg x

/-- The key a register value names; none above 15 (R125, R126). -/
def keyIndex (b : Byte) : Option Key := if h : b.toNat < 16 then some ⟨b.toNat, h⟩ else none

/-- `KEY[k]` (R5, R19). -/
def State.keyDown (s : State) (k : Key) : Bool := s.keys[k]

/-- The base address of the accesses through I, on natural numbers (R33, R106). -/
def State.iAddr (s : State) : Nat := s.i.toNat

/-- The address of the glyph of a value's low nibble: `5 * (V[x] & 0xF)` (R102). -/
def glyphAddr (b : Byte) : Word := BitVec.ofNat 16 (5 * (b &&& 0xF).toNat)

/-- The three decimal digits of a value, hundreds first (R103). -/
def bcdDigits (b : Byte) : List Byte :=
  [BitVec.ofNat 8 (b.toNat / 100), BitVec.ofNat 8 (b.toNat / 10 % 10), BitVec.ofNat 8 (b.toNat % 10)]

/-- I after a register dump or load of `V0..Vx`: advanced by `x + 1` modulo 65536 if `P_LOADSTORE_INC_I` (R104, R105). -/
def indexAfter (s : State) (x : Reg) : Word :=
  if s.params.loadStoreIncI then s.i + BitVec.ofNat 16 (x.val + 1) else s.i

/-- The value a key-wait writes for key `k` (R131). -/
def keyWaitByte (p : Params) (k : Key) : Byte :=
  match p.keyWaitValue with
  | .logicalIndex => BitVec.ofNat 8 k.val
  | .scanCode => p.scanCode[k]

end Sys2Proof.Machine
end

