-- ==== Sys2Proof/Machine/Alu.lean ====
section
/-! DEFINITION. 42_alu.md: the register and arithmetic instructions. Operands are read before anything is written, and a flag is
written after the result (R80). -/

namespace Sys2Proof.Machine

/-- `LD Vx, nn` (R81). -/
def execLdImm (x : Reg) (nn : Byte) (s : State) : Host.Outcome State Fault Refusal := .next (s.setReg x nn)

/-- `ADD Vx, nn`: modulo 256, no flag (R82). -/
def execAddImm (x : Reg) (nn : Byte) (s : State) : Host.Outcome State Fault Refusal :=
  .next (s.setReg x (s.reg x + nn))

/-- `LD Vx, Vy` (R83). -/
def execLdReg (x y : Reg) (s : State) : Host.Outcome State Fault Refusal := .next (s.setReg x (s.reg y))

/-- `OR Vx, Vy`: VF is no flag here (R84). -/
def execOrReg (x y : Reg) (s : State) : Host.Outcome State Fault Refusal :=
  .next (s.setReg x (s.reg x ||| s.reg y))

/-- `AND Vx, Vy` (R85). -/
def execAndReg (x y : Reg) (s : State) : Host.Outcome State Fault Refusal :=
  .next (s.setReg x (s.reg x &&& s.reg y))

/-- `XOR Vx, Vy` (R86). -/
def execXorReg (x y : Reg) (s : State) : Host.Outcome State Fault Refusal :=
  .next (s.setReg x (s.reg x ^^^ s.reg y))

/-- `ADD Vx, Vy`: VF = carry (R87). -/
def execAddReg (x y : Reg) (s : State) : Host.Outcome State Fault Refusal :=
  .next (s.setRegFlag x (s.reg x + s.reg y) (carryFlag (s.reg x) (s.reg y)))

/-- `SUB Vx, Vy`: Vx - Vy, VF = NOT borrow (R88). -/
def execSubReg (x y : Reg) (s : State) : Host.Outcome State Fault Refusal :=
  .next (s.setRegFlag x (s.reg x - s.reg y) (notBorrowFlag (s.reg x) (s.reg y)))

/-- `SHR Vx, Vy`: the operand by `P_SHIFT_SOURCE`, VF = its bit 0 (R89). -/
def execShr (x y : Reg) (s : State) : Host.Outcome State Fault Refusal :=
  .next (s.setRegFlag x (shiftOperand s x y >>> 1) (shrFlag (shiftOperand s x y)))

/-- `SUBN Vx, Vy`: Vy - Vx, VF = NOT borrow (R90). -/
def execSubn (x y : Reg) (s : State) : Host.Outcome State Fault Refusal :=
  .next (s.setRegFlag x (s.reg y - s.reg x) (notBorrowFlag (s.reg y) (s.reg x)))

/-- `SHL Vx, Vy`: the operand by `P_SHIFT_SOURCE`, VF = its bit 7 (R91). -/
def execShl (x y : Reg) (s : State) : Host.Outcome State Fault Refusal :=
  .next (s.setRegFlag x (shiftOperand s x y <<< 1) (shlFlag (shiftOperand s x y)))

/-- RND with the drawn byte `r` (R93): `V[x] <- r & nn`, and one more draw taken. -/
def rndWith (r : Byte) (x : Reg) (nn : Byte) (s : State) : Host.Outcome State Fault Refusal :=
  .next { s.setReg x (r &&& nn) with draws := s.draws + 1 }

/-- `RND Vx, nn`: the byte is a free draw (R3, R93; entry 3). -/
def execRnd (x : Reg) (nn : Byte) (s : State) : Host.Outcome State Fault Refusal :=
  rndWith (Config.randomByte s.draws) x nn s

end Sys2Proof.Machine
end

