-- ==== Sys2Proof/Machine/ControlFlow.lean ====
section
/-! DEFINITION. 41_control_flow.md: the meanings of SYS, RET, JP, CALL, the four compare-and-skips and JP V0. In every meaning PC
already holds a + 2 (R6). -/

namespace Sys2Proof.Machine

/-- `SYS nnn`: nothing beyond the fetch advance (R62). -/
def execSys (_nnn : Addr12) (s : State) : Host.Outcome State Fault Refusal := .next s

/-- `RET`: pop into PC; StackUnderflow on the empty stack, which is fatal (R63, R146). -/
def execRet (s : State) : Host.Outcome State Fault Refusal :=
  match s.pop with
  | none => raise .stackUnderflow s
  | some (w, s') => .next (s'.setPc w)

/-- `JP nnn` (R64). -/
def execJp (nnn : Addr12) (s : State) : Host.Outcome State Fault Refusal := .next (s.setPc (zextNnn nnn))

/-- `CALL nnn`: push the address of the next instruction and jump; StackOverflow when a finite capacity is reached (R65). -/
def execCall (nnn : Addr12) (s : State) : Host.Outcome State Fault Refusal :=
  if s.params.stackCapacity = some s.sp then raise .stackOverflow s
  else .next ((s.push s.pc).setPc (zextNnn nnn))

/-- `SE Vx, nn` (R66). -/
def execSeImm (x : Reg) (nn : Byte) (s : State) : Host.Outcome State Fault Refusal :=
  .next (s.skipIf (s.reg x == nn))

/-- `SNE Vx, nn` (R67). -/
def execSneImm (x : Reg) (nn : Byte) (s : State) : Host.Outcome State Fault Refusal :=
  .next (s.skipIf (s.reg x != nn))

/-- `SE Vx, Vy` (R68). -/
def execSeReg (x y : Reg) (s : State) : Host.Outcome State Fault Refusal :=
  .next (s.skipIf (s.reg x == s.reg y))

/-- `SNE Vx, Vy` (R69). -/
def execSneReg (x y : Reg) (s : State) : Host.Outcome State Fault Refusal :=
  .next (s.skipIf (s.reg x != s.reg y))

/-- `JP V0, nnn`: the sum is not reduced to 12 bits (R70). -/
def execJpV0 (nnn : Addr12) (s : State) : Host.Outcome State Fault Refusal :=
  .next (s.setPc (zextByte (s.reg 0) + zextNnn nnn))

end Sys2Proof.Machine
end

