-- ==== Sys2Proof/Machine/Display.lean ====
section
/-! DEFINITION. 44_display.md: CLS and DRW. Both end with the display strobe (R156). -/

namespace Sys2Proof.Machine

/-- The framebuffer with every pixel 0 (R115). -/
def clearPlane : Framebuffer := Vector.replicate 32 0

/-- `CLS` (R115). -/
def execCls (s : State) : Host.Outcome State Fault Refusal := .next { s with fb := clearPlane }.strobe

/-- The set bits of the sprite DRW would draw: the origin is (V[x], V[y]) as they stand before VF is written (R116). -/
def drwPixels (x y : Reg) (n : Fin 16) (s : State) : List (Nat × Nat) :=
  spritePixels (s.reg x).toNat (s.reg y).toNat (s.mem.readList s.iAddr n.val)

/-- `DRW Vx, Vy, n`: the sprite addresses are checked first, then, with `P_DRAW_COORD = Fault`, the pixels (R148); then the sprite
is drawn by XOR and VF is the collision (R116, R117). -/
def execDrw (x y : Reg) (n : Fin 16) (s : State) : Host.Outcome State Fault Refusal :=
  match firstBad s.iAddr n.val with
  | some addr => raise (.addressOutOfRange (.address addr)) s
  | none =>
    match offScreen s.params.drawCoord (drwPixels x y n s) with
    | some (column, row) => raise (.addressOutOfRange (.pixel column row)) s
    | none =>
      .next (({ s with fb := (drawPixels (drwPixels x y n s) s.fb false).1 }.setReg flagReg
        (flagOf (drawPixels (drwPixels x y n s) s.fb false).2)).strobe)

end Sys2Proof.Machine
end

