-- ==== Sys2Proof/Machine/IndexMemory.lean ====
section
/-! DEFINITION. 43_index_memory.md: the index register and the memory transfers. The address check precedes every write (R33,
R144). -/

namespace Sys2Proof.Machine

/-- `LD I, nnn` (R100). -/
def execLdI (nnn : Addr12) (s : State) : Host.Outcome State Fault Refusal := .next (s.setI (zextNnn nnn))

/-- `ADD I, Vx`: modulo 65536, no flag (R101). -/
def execAddI (x : Reg) (s : State) : Host.Outcome State Fault Refusal := .next (s.setI (s.i + zextByte (s.reg x)))

/-- `LD F, Vx` (R102). -/
def execLdF (x : Reg) (s : State) : Host.Outcome State Fault Refusal := .next (s.setI (glyphAddr (s.reg x)))

/-- `LD B, Vx`: hundreds, tens and units at I, I + 1, I + 2 (R103). -/
def execLdB (x : Reg) (s : State) : Host.Outcome State Fault Refusal :=
  match firstBad s.iAddr 3 with
  | some addr => raise (.addressOutOfRange (.address addr)) s
  | none => .next { s with mem := s.mem.writeList s.iAddr (bcdDigits (s.reg x)) }

/-- `LD [I], Vx`: V0..Vx to memory, then I by `P_LOADSTORE_INC_I` (R104). -/
def execStoreRegs (x : Reg) (s : State) : Host.Outcome State Fault Refusal :=
  match firstBad s.iAddr (x.val + 1) with
  | some addr => raise (.addressOutOfRange (.address addr)) s
  | none => .next { s with mem := s.mem.writeList s.iAddr (s.regsUpTo x), i := indexAfter s x }

/-- `LD Vx, [I]`: memory to V0..Vx, then I by `P_LOADSTORE_INC_I` (R105). -/
def execLoadRegs (x : Reg) (s : State) : Host.Outcome State Fault Refusal :=
  match firstBad s.iAddr (x.val + 1) with
  | some addr => raise (.addressOutOfRange (.address addr)) s
  | none => .next ((s.setRegs 0 (s.mem.readList s.iAddr (x.val + 1))).setI (indexAfter s x))

end Sys2Proof.Machine
end

