-- ==== Sys2Proof/Machine/TimersInput.lean ====
section
/-! DEFINITION. 45_timers_input.md: key tests, timer transfers, and the entry and the resume of the key-wait. -/

namespace Sys2Proof.Machine

/-- `SKP Vx`: a value above 15 names no key and is fatal (R125). -/
def execSkp (x : Reg) (s : State) : Host.Outcome State Fault Refusal :=
  match keyIndex (s.reg x) with
  | none => raise (.addressOutOfRange (.key (s.reg x))) s
  | some k => .next (s.skipIf (s.keyDown k))

/-- `SKNP Vx` (R126). -/
def execSknp (x : Reg) (s : State) : Host.Outcome State Fault Refusal :=
  match keyIndex (s.reg x) with
  | none => raise (.addressOutOfRange (.key (s.reg x))) s
  | some k => .next (s.skipIf (!s.keyDown k))

/-- `LD Vx, DT` (R127). -/
def execLdVxDT (x : Reg) (s : State) : Host.Outcome State Fault Refusal := .next (s.setReg x s.dt)

/-- `LD DT, Vx` (R128). -/
def execLdDTVx (x : Reg) (s : State) : Host.Outcome State Fault Refusal := .next (s.setDT (s.reg x))

/-- `LD ST, Vx` (R129). -/
def execLdSTVx (x : Reg) (s : State) : Host.Outcome State Fault Refusal := .next (s.setST (s.reg x))

/-- `LD Vx, K`: the entry of the key-wait; a key already down does not count (R130). -/
def execLdVxK (x : Reg) (s : State) : Host.Outcome State Fault Refusal := .next { s with status := .waiting x [] }

/-- The key-wait's resume step with the key `k` (R131). -/
def resumeWith (x : Reg) (k : Key) (s : State) : State :=
  { s.setReg x (keyWaitByte s.params k) with status := .running }

/-- The interpreter's turn in `Waiting(x, P)`: with P empty it has no step and the turn passes (R158, R161; entry 2); else it
resumes with an element of P, a draw when P has several (R131; entry 4). -/
def resumeWait (x : Reg) (pressed : List Key) (s : State) : State :=
  match chooseKey (Config.keyChoice s.draws) pressed with
  | none => s
  | some k => resumeWith x k { s with draws := if pressed.length < 2 then s.draws else s.draws + 1 }

end Sys2Proof.Machine
end

