-- ==== Sys2Proof/Machine/Interpreter.lean ====
section
/-! DEFINITION. The interpreter's own step: fetch, advance, decode and execute (41_control_flow.md R60), or the key-wait resume
(45_timers_input.md R131). -/

namespace Sys2Proof.Machine

/-- The instruction word at PC, big-endian (R36, R60). -/
def fetchedWord (s : State) : Word := wordOfBytes (s.mem.read s.pc.toNat) (s.mem.read (s.pc.toNat + 1))

/-- The fetch advance: status Running, PC + 2 modulo 65536 (R60). -/
def advance (s : State) : State := { s with status := .running, pc := s.pc + 2 }

/-- Execute a fetched word: its instruction, or nothing more for an unassigned word (R54). -/
def executeWord (w : Word) (s : State) : Host.Outcome State Fault Refusal :=
  match decode w with
  | .instr i => exec i s
  | .unassigned _ => .next s

/-- Fetch, advance, decode, execute; a fetch fault leaves PC = a (R60, R144). -/
def fetchStep (s : State) : Host.Outcome State Fault Refusal :=
  match firstBad s.pc.toNat 2 with
  | some addr => .next (s.haltAt s.pc (.addressOutOfRange (.address addr)))
  | none => executeWord (fetchedWord s) (advance s)

/-- The interpreter's turn, by status (R20, R60, R131). In Halted it has none (R145). -/
def interpreterStep (s : State) : Host.Outcome State Fault Refusal :=
  match s.status with
  | .loaded => fetchStep s
  | .running => fetchStep s
  | .waiting x pressed => .next (resumeWait x pressed s)
  | .halted h => .fault (.halted h)

end Sys2Proof.Machine
end

