-- ==== Sys2Proof/Machine/Step.lean ====
section
/-! DEFINITION. One step of the machine: the step of the agent whose turn it is (60_exceptions.md R149, R150), and where a word is
placed so that the next step runs it. -/

namespace Sys2Proof.Machine

/-- One atomic step (R38). In Halted no agent has one (R145). Else the first turn of `schedule` is taken; when `schedule` is empty
the interpreter moves (entry 1). -/
def step (s : State) : Host.Outcome State Fault Refusal :=
  match s.status with
  | .halted h => .fault (.halted h)
  | _ =>
    match s.schedule with
    | [] => interpreterStep s
    | .interpreter :: rest => interpreterStep { s with schedule := rest }
    | .tick :: rest => .next (tickStep { s with schedule := rest })
    | .keyEvent k p :: rest => .next (keyStep k p { s with schedule := rest })
    | .stop :: rest => .next (stopStep { s with schedule := rest })

/-- A status in which the interpreter fetches: Loaded and Running stay, any other becomes Running. -/
def fetchingStatus : Status → Status
  | .loaded => .loaded
  | .running => .running
  | .waiting _ _ => .running
  | .halted _ => .running

/-- The stop signal a fetching status goes with: clear where the status was Halted, else as it is. -/
def fetchingStop : Status → Bool → Bool
  | .halted _, _ => false
  | .loaded, b => b
  | .running, b => b
  | .waiting _ _, b => b

/-- The turns with the interpreter's first. -/
def interpreterFirst : List Turn → List Turn
  | [] => []
  | .interpreter :: rest => .interpreter :: rest
  | t :: rest => .interpreter :: t :: rest

/-- The state with the table word stored where the next step fetches (entry 9). PC stays where two bytes of memory exist and is
the load base otherwise; a status with no fetch becomes Running; the interpreter is given the turn. -/
def State.withFetchWord (s : State) (nbits w : Nat) : State :=
  let word := tableWord nbits w
  let pc := if s.pc.toNat < 0xFFF then s.pc else programBase
  { s with
    pc := pc
    mem := s.mem.writeList pc.toNat [highByte word, lowByte word]
    status := fetchingStatus s.status
    stop := fetchingStop s.status s.stop
    schedule := interpreterFirst s.schedule }

end Sys2Proof.Machine
end

