-- ==== Sys2Proof/Machine/Boot.lean ====
section
/-! DEFINITION. Reset with a program image (70_reset_and_hazards.md R170..R172, 60_exceptions.md R147) and the observable outputs of
the block (60_exceptions.md R155). -/

namespace Sys2Proof.Machine

/-- The longest image reset accepts: 4096 - 512 bytes (R147, R171). -/
def imageCapacity : Nat := 3584

/-- Reset with parameters, `P_FONT` and an image (R170): LoadError for an absent, unreadable or oversized image, and then no state
comes into being (R147, R171); else the reset state with the font at 0x000 and the image at 0x200. -/
def boot (p : Params) (font : Vector Byte 80) : Image → Except LoadError State
  | .absent => .error .absent
  | .unreadable => .error .unreadable
  | .bytes image =>
    if image.length ≤ imageCapacity then
      .ok { State.reset with
        params := p
        mem := (Memory.writeList [] 0 font.toList).writeList programBase.toNat image }
    else .error .oversized

/-- The code of a halt reason (R141). -/
def Halt.code : Halt → Nat
  | .quit => 0
  | .fatal .stackUnderflow _ => 1
  | .fatal (.addressOutOfRange _) _ => 2
  | .fatal .stackOverflow _ => 3

/-- What the block shows to its environment (R155), with the number of display strobes so far (R156). -/
structure Outputs where
  framebuffer : Framebuffer
  strobes : Nat
  soundTimer : Byte
  status : Status
deriving DecidableEq, Repr

/-- The outputs in a state (R155). -/
def outputs (s : State) : Outputs where
  framebuffer := s.fb
  strobes := s.strobes
  soundTimer := s.st
  status := s.status

end Sys2Proof.Machine
end

