-- ==== Sys2Proof/Safety.lean ====
section
/-! DEFINITION. The terms claims are stated in: the parts of a state and what keeps them, the invariant of the machine, and runs
that reach no fatal condition. -/

namespace Sys2Proof.Machine

/-- The parts a state is made of, one byte of memory, one register, one pixel or one key at a time. -/
inductive Part where
  | reg (x : Reg)
  | index
  | pc
  | stack
  | dt
  | st
  | pixel (r : Fin 32) (c : Fin 64)
  | key (k : Key)
  | status
  | stop
  | byte (a : Nat)
  | strobes
  | params
  | schedule
  | draws
deriving DecidableEq, Repr

/-- The part has the same contents in both states. -/
def Part.Same (p : Part) (s t : State) : Prop :=
  match p with
  | .reg x => t.reg x = s.reg x
  | .index => t.i = s.i
  | .pc => t.pc = s.pc
  | .stack => t.stack = s.stack
  | .dt => t.dt = s.dt
  | .st => t.st = s.st
  | .pixel r c => Sys2Proof.Machine.pixel t.fb r c = Sys2Proof.Machine.pixel s.fb r c
  | .key k => t.keyDown k = s.keyDown k
  | .status => t.status = s.status
  | .stop => t.stop = s.stop
  | .byte a => t.mem.read a = s.mem.read a
  | .strobes => t.strobes = s.strobes
  | .params => t.params = s.params
  | .schedule => t.schedule = s.schedule
  | .draws => t.draws = s.draws

/-- The frame: every part but those that satisfy `changed` is as before. -/
def KeepsBut (changed : Part → Prop) (s t : State) : Prop := ∀ p, ¬ changed p → p.Same s t

/-- The status is not Halted (R145). -/
def State.live (s : State) : Bool :=
  match s.status with
  | .halted _ => false
  | _ => true

/-- The status is Loaded or Running: the interpreter may fetch (R60). -/
def State.fetching (s : State) : Bool :=
  match s.status with
  | .loaded => true
  | .running => true
  | _ => false

/-- A list of keys is ascending and has no repeats. -/
def keysAscending : List Key → Bool
  | [] => true
  | [_] => true
  | k :: k' :: ks => decide (k < k') && keysAscending (k' :: ks)

/-- The keys a key-wait has collected form a set in canonical form (R20, R152). -/
def Status.waitOk : Status → Bool
  | .waiting _ pressed => keysAscending pressed
  | _ => true

/-- The call stack respects a finite capacity (R15). -/
def State.stackOk (s : State) : Bool :=
  match s.params.stackCapacity with
  | none => true
  | some c => decide (s.sp ≤ c)

/-- The invariant of the machine: memory keeps its canonical form (R30), a key-wait's keys are a set, the stack respects its
capacity (R15), and the stop signal is set exactly when the status is Halted(Quit) (R21, R153). -/
structure State.Inv (s : State) : Prop where
  memory : s.mem.wf = true
  wait : s.status.waitOk = true
  stackBound : s.stackOk = true
  stopQuit : s.stop = true ↔ s.status = .halted .quit

/-- The interpreter has the turn, with `rest` to come: `schedule` names it first, or names nobody (R150; entry 1). -/
def InterpreterNext (s : State) (rest : List Turn) : Prop :=
  (s.schedule = [] ∧ rest = []) ∨ s.schedule = .interpreter :: rest

/-- Bit `7 - j` of the k-th byte of the n-byte sprite at I is set: a pixel of row k, column j of the sprite (R116). -/
def SpriteBit (s : State) (n : Fin 16) (k j : Nat) : Prop :=
  k < n.val ∧ j < 8 ∧ (s.mem.read (s.iAddr + k)).getLsbD (7 - j) = true

/-- A set bit of the sprite with origin (V[x], V[y]) wraps to row r, column c of the plane (R116). -/
def SpriteLands (s : State) (x y : Reg) (n : Fin 16) (r : Fin 32) (c : Fin 64) : Prop :=
  ∃ k j, SpriteBit s n k j ∧ ((s.reg y).toNat + k) % 32 = r.val ∧ ((s.reg x).toNat + j) % 64 = c.val

/-- The unreduced place of row k, column j of the sprite is outside the plane (R117). -/
def SpriteOff (s : State) (x y : Reg) (k j : Nat) : Prop := 63 < (s.reg x).toNat + j ∨ 31 < (s.reg y).toNat + k

/-- Row k, column j holds the first set bit outside the plane, rows in order and each from the left (R117). -/
def FirstSpriteOff (s : State) (x y : Reg) (n : Fin 16) (k j : Nat) : Prop :=
  SpriteBit s n k j ∧ SpriteOff s x y k j ∧
    ∀ k' j', SpriteBit s n k' j' → (k' < k ∨ (k' = k ∧ j' < j)) → ¬ SpriteOff s x y k' j'

/-- DRW may draw: the sprite lies in memory, and with `P_DRAW_COORD = Fault` no set bit is outside the plane (R116, R117). -/
def Drawable (s : State) (x y : Reg) (n : Fin 16) : Prop :=
  (n.val = 0 ∨ s.iAddr + n.val ≤ memorySize) ∧
    (s.params.drawCoord = .fault → ∀ k j, SpriteBit s n k j → ¬ SpriteOff s x y k j)

/-- A state whose status is Halted with a fatal condition (R141). -/
def State.fatal (s : State) : Bool :=
  match s.status with
  | .halted (.fatal _ _) => true
  | _ => false

/-- `n` steps from `s` reach `t`. -/
def Reaches (s : State) (n : Nat) (t : State) : Prop := Host.Core.run Sys2Proof.core n s = .next t

/-- A safe run: no state it reaches is halted by a fatal condition (60_exceptions.md R141). -/
def SafeFrom (s : State) : Prop := ∀ n t, Reaches s n t → t.fatal = false

end Sys2Proof.Machine
end

