-- ==== Sys2Proof/Certificates/Slice0/Obligations.lean ====
section
/-! DEFINITION. The statements for the provers. Rules R<n>, decisions D<n> and general-knowledge passages G<n> are those of spec/;
"entry <n>" is notes/assumptions/<n>.md. In a statement about `exec` PC already holds a + 2 (R6), so an instruction that neither
jumps nor skips keeps it. The bit positions in a decode clause are those of opcode_table.json (G1, G2; entry 14). -/

open Sys2Proof Sys2Proof.Machine

/-! ### Encoding -/

/-- Decoding the bytes of a well-formed instruction gives it back, every operand at every value (R45..R53, G1, G2). -/
def Obligations.DecodeOfEncodeIsTheInstruction : Prop :=
  ∀ (i : Instr) (rest : List Byte), i.WF → decodeBytes (encodeBytes i ++ rest) = .instr i rest

/-- A word that decodes to an instruction is that instruction's word, but for n in groups 5 and 9, which is ignored and assembles
as 0 (R53, D11); and the instruction is well formed. -/
def Obligations.EncodeOfDecodeIsTheWord : Prop :=
  ∀ (w : Word) (i : Instr), decode w = .instr i →
    i.WF ∧ encode i = if opField w = 5 ∨ opField w = 9 then w &&& 0xFFF0 else w

/-- R54: exactly these words are unassigned, and such a word executes as a no-op: the fetch advance is its only effect (the status
after a fetch is Running, R60). -/
def Obligations.UnassignedWordsAreNoOps : Prop :=
  (∀ w : Word, (∃ u, decode w = .unassigned u) ↔
    (opField w = 0x8 ∧ (nField w).val ∈ [0x8, 0x9, 0xA, 0xB, 0xC, 0xD, 0xF]) ∨
    (opField w = 0xE ∧ (nnField w).toNat ∉ [0x9E, 0xA1]) ∨
    (opField w = 0xF ∧ (nnField w).toNat ∉ [0x07, 0x0A, 0x15, 0x18, 0x1E, 0x29, 0x33, 0x55, 0x65])) ∧
  (∀ (s : State) (u : Unassigned), s.pc.toNat + 1 ≤ 0xFFF → decode (fetchedWord s) = .unassigned u →
    ∃ t, fetchStep s = .next t ∧ t.pc = s.pc + 2 ∧ t.status = .running ∧
      KeepsBut (fun p => p = .pc ∨ p = .status) s t)

/-- Words written out from R57 and opcode_table.json decode to what they stand for. -/
def Obligations.SampleWordsDecode : Prop :=
  decode 0b0000000100100011 = .instr (.sys 0x123) ∧
  decode 0b0000000011101110 = .instr .ret ∧
  decode 0b0010001100000000 = .instr (.call 0x300) ∧
  decode 0b0101000100100001 = .instr (.seReg 1 2) ∧
  decode 0b1000000000010100 = .instr (.addReg 0 1) ∧
  decode 0b1000000000011110 = .instr (.shl 0 1) ∧
  decode 0b1000000000011000 = .unassigned (.group8 8) ∧
  decode 0b1010001011110000 = .instr (.ldI 0x2F0) ∧
  decode 0b1101000100100101 = .instr (.drw 1 2 5) ∧
  decode 0b1110000110011110 = .instr (.skp 1) ∧
  decode 0b1111001001010101 = .instr (.storeRegs 2)

/-! ### The step -/

/-- A step runs the decoded instruction: with the status Loaded or Running, the interpreter's turn and two bytes of memory at PC
whose big-endian word decodes to i, step is exec of i at the state after the fetch advance (R60, R36; the turn is entry 1). -/
def Obligations.StepRunsTheDecodedInstruction : Prop :=
  ∀ (s : State) (rest : List Turn) (i : Instr), s.fetching = true → InterpreterNext s rest → s.pc.toNat + 1 ≤ 0xFFF →
    decode (s.mem.read s.pc.toNat ++ s.mem.read (s.pc.toNat + 1)) = .instr i →
    step s = exec i { s with pc := s.pc + 2, status := .running, schedule := rest }

/-- A fetch outside memory halts with AddressOutOfRange at the first address above 0xFFF, PC = a, and nothing else changes (R60;
the halt record and precision are D13, D14; the turn is entry 1; a Halted status is a next state by entry 8). -/
def Obligations.FetchOutsideMemoryHalts : Prop :=
  ∀ (s : State) (rest : List Turn), s.fetching = true → InterpreterNext s rest → 0xFFE < s.pc.toNat →
    ∃ t, step s = .next t ∧
      t.status = .halted (.fatal (.addressOutOfRange (.address (max s.pc.toNat 0x1000))) s.pc) ∧ t.schedule = rest ∧
      KeepsBut (fun p => p = .status ∨ p = .schedule) s t

/-- No agent takes a step in Halted, whatever turns are to come (R145, D28; the fault is entry 8). -/
def Obligations.HaltedIsFinal : Prop :=
  ∀ (s : State) (h : Halt), s.status = .halted h → step s = .fault (.halted h)

/-- The tick step: each timer falls by one and never below 0, and nothing else changes, in every status but Halted (R151, D20). -/
def Obligations.TickDecrementsBothTimers : Prop :=
  ∀ (s : State) (rest : List Turn), s.live = true → s.schedule = .tick :: rest →
    ∃ t, step s = .next t ∧ t.dt.toNat = s.dt.toNat - 1 ∧ t.st.toNat = s.st.toNat - 1 ∧ t.schedule = rest ∧
      KeepsBut (fun p => p = .dt ∨ p = .st ∨ p = .schedule) s t

/-- Any number of ticks in a row takes a timer to what is left, and to 0 when there are more ticks than its value (E8, R151). -/
def Obligations.TicksNeverDriveATimerBelowZero : Prop :=
  ∀ (s : State) (n : Nat) (rest : List Turn), s.live = true → s.schedule = List.replicate n .tick ++ rest →
    ∃ t, Reaches s n t ∧ t.dt.toNat = s.dt.toNat - n ∧ t.st.toNat = s.st.toNat - n ∧ t.schedule = rest ∧
      KeepsBut (fun p => p = .dt ∨ p = .st ∨ p = .schedule) s t

/-- The key-event step: the latch entry takes the named state; a press of a released key during a key-wait joins P; nothing else
changes (R152, D19). -/
def Obligations.KeyEventUpdatesLatchAndWait : Prop :=
  ∀ (s : State) (k : Key) (e : KeyEdge) (rest : List Turn), s.live = true → s.schedule = .keyEvent k e :: rest →
    ∃ t, step s = .next t ∧ (t.keyDown k = true ↔ e = .pressed) ∧ t.schedule = rest ∧
      (∀ x ks, s.status = .waiting x ks → e = .pressed → s.keyDown k = false →
        ∃ ks', t.status = .waiting x ks' ∧ ∀ q, q ∈ ks' ↔ q = k ∨ q ∈ ks) ∧
      ((∀ x ks, s.status ≠ .waiting x ks) ∨ e = .released ∨ s.keyDown k = true → t.status = s.status) ∧
      KeepsBut (fun p => p = .key k ∨ p = .status ∨ p = .schedule) s t

/-- The stop step halts in every status but Halted, a key-wait included, and writes no register (R153, D28). -/
def Obligations.StopHaltsAtOnce : Prop :=
  ∀ (s : State) (rest : List Turn), s.live = true → s.schedule = .stop :: rest →
    ∃ t, step s = .next t ∧ t.stop = true ∧ t.status = .halted .quit ∧ t.schedule = rest ∧
      KeepsBut (fun p => p = .stop ∨ p = .status ∨ p = .schedule) s t

/-- The entry of LD Vx,K: the status becomes Waiting(x, empty set) whatever keys are down (R130, D19). -/
def Obligations.KeyWaitEntryWaits : Prop :=
  (∀ w, opField w = 0xF → (nnField w).toNat = 0x0A → decode w = .instr (.ldVxK (xField w))) ∧
  ∀ (x : Reg) (s : State), ∃ t, exec (.ldVxK x) s = .next t ∧ t.status = .waiting x [] ∧
    KeepsBut (fun p => p = .status) s t

/-- The resume of a key-wait: some element of P is written to V[x], as its index or as its scan code by `P_KEYWAIT_VALUE`; which
one is a free draw (R131, D5, D19; entry 4). -/
def Obligations.KeyWaitResumesWithAPressedKey : Prop :=
  ∀ (s : State) (x : Reg) (ks : List Key) (rest : List Turn), s.status = .waiting x ks → ks ≠ [] → InterpreterNext s rest →
    ∃ k ∈ ks, ∃ t, step s = .next t ∧
      (s.params.keyWaitValue = .logicalIndex → (t.reg x).toNat = k.val) ∧
      (s.params.keyWaitValue = .scanCode → t.reg x = s.params.scanCode[k]) ∧
      t.status = .running ∧ t.schedule = rest ∧
      KeepsBut (fun p => p = .reg x ∨ p = .status ∨ p = .schedule ∨ p = .draws) s t

/-- THE MODEL'S CHOICE (entry 2): in Waiting with P empty the interpreter has no step (R131, R161), so a turn given to it passes
and changes nothing but the turns to come. -/
def Obligations.KeyWaitWithoutPressPasses : Prop :=
  ∀ (s : State) (x : Reg) (rest : List Turn), s.status = .waiting x [] → InterpreterNext s rest →
    step s = .next { s with schedule := rest }

/-- `JP a` at address a runs forever and reaches no fatal condition while no other agent moves (R161, R64). -/
def Obligations.SelfJumpRunsForever : Prop :=
  ∀ (s : State) (nnn : Addr12), s.fetching = true → s.schedule = [] → s.pc.toNat + 1 ≤ 0xFFF → s.pc.toNat = nnn.toNat →
    decode (s.mem.read s.pc.toNat ++ s.mem.read (s.pc.toNat + 1)) = .instr (.jp nnn) →
    (∀ n, ∃ t, Reaches s n t ∧ t.pc = s.pc ∧ KeepsBut (fun p => p = .status) s t) ∧ SafeFrom s

/-! ### Whole-machine rules -/

/-- Every step of every agent keeps the invariant: canonical memory (R30), a key-wait's keys a set (R20), the stack within its
capacity (R15), stop set exactly when Halted(Quit) (R21, R153). -/
def Obligations.EveryStepKeepsTheInvariant : Prop :=
  ∀ s t : State, s.Inv → step s = .next t → t.Inv

/-- The reset state meets the invariant. -/
def Obligations.ResetMeetsTheInvariant : Prop := State.reset.Inv

/-- Every accepted load meets the invariant (R170). -/
def Obligations.BootMeetsTheInvariant : Prop :=
  ∀ (p : Params) (font : Vector Byte 80) (im : Image) (s : State), boot p font im = .ok s → s.Inv

/-- The parameters are fixed per run and never changed by a step (R2). -/
def Obligations.StepsNeverChangeParameters : Prop :=
  ∀ s t : State, step s = .next t → t.params = s.params

/-- R23, column "written by": what each piece of state but V0..VF can be changed by (the halted status of a fatal condition
apart, which is R143). -/
def Obligations.OnlyTheNamedInstructionsWriteEachStateButV : Prop :=
  ∀ (i : Instr) (s t : State), exec i s = .next t →
    (t.i ≠ s.i → (∃ nnn, i = .ldI nnn) ∨ (∃ x, i = .addI x) ∨ (∃ x, i = .ldF x) ∨
      (s.params.loadStoreIncI = true ∧ ((∃ x, i = .storeRegs x) ∨ (∃ x, i = .loadRegs x)))) ∧
    (t.pc ≠ s.pc → i = .ret ∨ (∃ nnn, i = .jp nnn ∨ i = .call nnn ∨ i = .jpV0 nnn) ∨
      (∃ x nn, i = .seImm x nn ∨ i = .sneImm x nn) ∨ (∃ x y, i = .seReg x y ∨ i = .sneReg x y) ∨
      (∃ x, i = .skp x ∨ i = .sknp x)) ∧
    (t.stack ≠ s.stack → i = .ret ∨ ∃ nnn, i = .call nnn) ∧
    (t.dt ≠ s.dt → ∃ x, i = .ldDTVx x) ∧
    (t.st ≠ s.st → ∃ x, i = .ldSTVx x) ∧
    (t.fb ≠ s.fb → i = .cls ∨ ∃ x y n, i = .drw x y n) ∧
    (t.mem ≠ s.mem → (∃ x, i = .ldB x) ∨ ∃ x, i = .storeRegs x) ∧
    t.keys = s.keys ∧ t.stop = s.stop ∧ t.params = s.params ∧ t.schedule = s.schedule

/-- R23, row V0..VF, column "written by": a register changes only as the destination of an instruction, as V0..Vx of the register
load, or as VF by an instruction that sets a flag. The write of LD Vx,K is its resume's, which is no part of `exec` (R131). -/
def Obligations.OnlyTheNamedInstructionsWriteV0ToVF : Prop :=
  ∀ (i : Instr) (s t : State) (r : Reg), exec i s = .next t → t.reg r ≠ s.reg r →
    (∃ nn, i = .ldImm r nn ∨ i = .addImm r nn ∨ i = .rnd r nn) ∨
    (∃ y, i = .ldReg r y ∨ i = .orReg r y ∨ i = .andReg r y ∨ i = .xorReg r y ∨ i = .addReg r y ∨ i = .subReg r y ∨
      i = .subn r y ∨ i = .shr r y ∨ i = .shl r y) ∨
    i = .ldVxDT r ∨
    (∃ x, i = .loadRegs x ∧ r.val ≤ x.val) ∨
    (r = 15 ∧ ((∃ x y, i = .addReg x y ∨ i = .subReg x y ∨ i = .subn x y ∨ i = .shr x y ∨ i = .shl x y) ∨
      ∃ x y n, i = .drw x y n))

/-- VF changes only by an instruction that writes it as a flag or names it as its destination, and a flag is 0 or 1 (R11, R80;
that DRW without fault is meant by its live status is entry 8). -/
def Obligations.OnlyFlagWritersAndDestinationsChangeVF : Prop :=
  ∀ (i : Instr) (s t : State), exec i s = .next t → t.reg 15 ≠ s.reg 15 →
    (((∃ x y, i = .addReg x y ∨ i = .subReg x y ∨ i = .subn x y ∨ i = .shr x y ∨ i = .shl x y) ∨
        (∃ x y n, i = .drw x y n)) ∧ (t.reg 15 = 0 ∨ t.reg 15 = 1)) ∨
    (∃ nn, i = .ldImm 15 nn ∨ i = .addImm 15 nn ∨ i = .rnd 15 nn) ∨
    (∃ y, i = .ldReg 15 y ∨ i = .orReg 15 y ∨ i = .andReg 15 y ∨ i = .xorReg 15 y) ∨
    i = .ldVxDT 15 ∨ i = .loadRegs 15

/-- Every instruction executes in every state, in the one mode there is: exec always answers a next state (R154, D17; a fatal
condition is a next state by entry 8). -/
def Obligations.EveryInstructionAnswersANextState : Prop :=
  ∀ (i : Instr) (s : State), ∃ t, exec i s = .next t

/-- Faults are precise: an instruction that halts the machine changes nothing but the status, whose record holds the address the
instruction was fetched from, a = PC - 2 (R143, R144, D10, D14). -/
def Obligations.FatalConditionsArePrecise : Prop :=
  ∀ (i : Instr) (s t : State), s.live = true → exec i s = .next t → t.live = false →
    ∃ r, t = { s with status := .halted (.fatal r (s.pc - 2)) }

/-- The fatal conditions of an instruction are exactly those of the table of R141, each with its detail, and no other condition
faults (R141, R142; D2, D7, D13; the memory check of DRW comes first, R148). -/
def Obligations.FatalConditionsAreExactlyTheTable : Prop :=
  ∀ (i : Instr) (s t : State) (r : Fatal), s.live = true → exec i s = .next t →
    (t.status = .halted (.fatal r (s.pc - 2)) ↔
      (i = .ret ∧ s.stack = [] ∧ r = .stackUnderflow) ∨
      ((∃ nnn, i = .call nnn) ∧ s.params.stackCapacity = some s.sp ∧ r = .stackOverflow) ∨
      (∃ x, (i = .skp x ∨ i = .sknp x) ∧ 15 < (s.reg x).toNat ∧ r = .addressOutOfRange (.key (s.reg x))) ∨
      ((∃ x, i = .ldB x) ∧ 0xFFF < s.i.toNat + 2 ∧ r = .addressOutOfRange (.address (max s.i.toNat 0x1000))) ∨
      (∃ x, (i = .storeRegs x ∨ i = .loadRegs x) ∧ 0xFFF < s.i.toNat + x.val ∧
        r = .addressOutOfRange (.address (max s.i.toNat 0x1000))) ∨
      (∃ x y n, i = .drw x y n ∧ 0 < n.val ∧ 0xFFF < s.i.toNat + n.val - 1 ∧
        r = .addressOutOfRange (.address (max s.i.toNat 0x1000))) ∨
      (∃ x y n, i = .drw x y n ∧ (n.val = 0 ∨ s.i.toNat + n.val - 1 ≤ 0xFFF) ∧ s.params.drawCoord = .fault ∧
        ∃ k j, FirstSpriteOff s x y n k j ∧
          r = .addressOutOfRange (.pixel ((s.reg x).toNat + j) ((s.reg y).toNat + k))))

/-- The codes of the halt reasons, which are the spec's own labels (R141, D13). -/
def Obligations.HaltReasonCodes : Prop :=
  Halt.code .quit = 0 ∧ ∀ (a : Word) (d : OutOfRange),
    Halt.code (.fatal .stackUnderflow a) = 1 ∧ Halt.code (.fatal (.addressOutOfRange d) a) = 2 ∧
    Halt.code (.fatal .stackOverflow a) = 3

/-- The display strobe is signalled by CLS and by each DRW that does not fault, once, and by no other instruction (R156, D23; the
count is entry 10). -/
def Obligations.OnlyDisplayInstructionsStrobe : Prop :=
  ∀ (i : Instr) (s t : State), s.live = true → exec i s = .next t →
    (t.strobes = s.strobes + 1 ↔ i = .cls ∨ ((∃ x y n, i = .drw x y n) ∧ t.live = true)) ∧
    (t.strobes = s.strobes + 1 ∨ t.strobes = s.strobes)

/-- No instruction reads ST (R17, R23): two states that differ in ST alone are taken, given the same draw, to states that differ in
ST alone. That RND draws the same byte in both is the model's (entry 3: the draw is a function of the counter). -/
def Obligations.NoInstructionReadsTheSoundTimer : Prop :=
  ∀ (i : Instr) (s t : State) (b : Byte), exec i s = .next t → ∃ b', exec i { s with st := b } = .next { t with st := b' }

/-! ### Reset -/

/-- What reset leaves (R24; D1 for PC, D8 for the zero fill, D27 for the font bytes). -/
def Obligations.ResetValues : Prop :=
  (∀ x, State.reset.reg x = 0) ∧ State.reset.i = 0 ∧ State.reset.pc = 0x200 ∧ State.reset.stack = [] ∧
  State.reset.dt = 0 ∧ State.reset.st = 0 ∧ (∀ r c, pixel State.reset.fb r c = false) ∧
  (∀ k, State.reset.keyDown k = false) ∧ State.reset.status = .loaded ∧ State.reset.stop = false ∧
  (∀ a, (h : a < 80) → State.reset.mem.read a = defaultFont[a]) ∧ (∀ a, 80 ≤ a → State.reset.mem.read a = 0)

/-- Reset accepts an image iff it is present, readable and at most 3584 bytes long (R171, R147, D21). -/
def Obligations.ImageAcceptedExactlyUpToCapacity : Prop :=
  ∀ (p : Params) (font : Vector Byte 80) (im : Image),
    (∃ s, boot p font im = .ok s) ↔ ∃ bs, im = .bytes bs ∧ bs.length ≤ 3584

/-- After a load memory holds the font, zeros, the image at 0x200, zeros, and every other piece of state its reset value (R170,
R172, D8); the parameters are those given. -/
def Obligations.BootLoadsFontAndImage : Prop :=
  ∀ (p : Params) (font : Vector Byte 80) (bs : List Byte) (s : State), boot p font (.bytes bs) = .ok s →
    (∀ a, (h : a < 80) → s.mem.read a = font[a]) ∧
    (∀ a, 80 ≤ a → a < 0x200 → s.mem.read a = 0) ∧
    (∀ k, (h : k < bs.length) → s.mem.read (0x200 + k) = bs[k]) ∧
    (∀ a, 0x200 + bs.length ≤ a → s.mem.read a = 0) ∧
    s.params = p ∧ KeepsBut (fun q => q = .params ∨ ∃ a, q = .byte a) State.reset s

/-! ### Memory -/

/-- A read returns the byte the most recent write to its address wrote, or else what memory held before (R39). -/
def Obligations.ReadReturnsTheMostRecentWrite : Prop :=
  ∀ (m : Memory) (ws : List (Nat × Byte)), (∀ w ∈ ws, w.1 < 4096) → ∀ a : Nat,
    (ws.foldl (fun m w => m.write w.1 w.2) m).read a =
      match ws.reverse.find? (fun w => w.1 == a) with
      | some w => w.2
      | none => m.read a

/-- Equal contents are equal data: two memories in canonical form that read the same at every address are the same list (the
representation is the model's, entry 7). -/
def Obligations.CanonicalMemoriesWithEqualBytesAreEqual : Prop :=
  ∀ m m' : Memory, m.wf = true → m'.wf = true → (∀ a, m.read a = m'.read a) → m = m'

/-- A store is seen by the next fetch from its address (R42): after LD [I],Vx with x > 0, the word at I is V0 ++ V1. -/
def Obligations.StoreIsSeenByTheNextFetch : Prop :=
  ∀ (s : State) (x : Reg), 0 < x.val → s.i.toNat + x.val ≤ 0xFFF →
    ∃ t, exec (.storeRegs x) s = .next t ∧ fetchedWord (t.setPc s.i) = s.reg 0 ++ s.reg 1

/-! ### Control flow -/

/-- SYS nnn and every group 0 word but 00E0 and 00EE: no effect beyond the fetch advance (R62, D12). -/
def Obligations.SysDoesNothing : Prop :=
  (∀ w, opField w = 0x0 → w ≠ 0x00E0 → w ≠ 0x00EE → decode w = .instr (.sys (nnnField w))) ∧
  ∀ (nnn : Addr12) (s : State), ∃ t, exec (.sys nnn) s = .next t ∧ KeepsBut (fun _ => False) s t

/-- RET pops the top of the call stack into PC, used as it is; on the empty stack it raises StackUnderflow, which is fatal (R63;
the halt record is D13, D14 and a next state by entry 8). -/
def Obligations.ReturnPopsIntoPc : Prop :=
  decode 0x00EE = .instr .ret ∧
  (∀ (s : State) (l : List Word) (w : Word), s.stack = l ++ [w] →
    ∃ t, exec .ret s = .next t ∧ t.pc = w ∧ t.stack = l ∧ KeepsBut (fun p => p = .pc ∨ p = .stack) s t) ∧
  (∀ s : State, s.stack = [] →
    ∃ t, exec .ret s = .next t ∧ t.status = .halted (.fatal .stackUnderflow s.instrAddr) ∧
      KeepsBut (fun p => p = .status) s t)

/-- JP nnn sets PC to the 12-bit address (R64). -/
def Obligations.JumpSetsPc : Prop :=
  (∀ w, opField w = 0x1 → decode w = .instr (.jp (nnnField w))) ∧
  ∀ (nnn : Addr12) (s : State), ∃ t, exec (.jp nnn) s = .next t ∧ t.pc.toNat = nnn.toNat ∧
    KeepsBut (fun p => p = .pc) s t

/-- CALL nnn pushes the address of the next instruction and jumps; with a finite capacity reached it raises StackOverflow and pushes
nothing (R65, D2). -/
def Obligations.CallPushesAndJumps : Prop :=
  (∀ w, opField w = 0x2 → decode w = .instr (.call (nnnField w))) ∧
  (∀ (nnn : Addr12) (s : State), s.params.stackCapacity ≠ some s.sp →
    ∃ t, exec (.call nnn) s = .next t ∧ t.stack = s.stack ++ [s.pc] ∧ t.pc.toNat = nnn.toNat ∧
      KeepsBut (fun p => p = .pc ∨ p = .stack) s t) ∧
  (∀ (nnn : Addr12) (s : State), s.params.stackCapacity = some s.sp →
    ∃ t, exec (.call nnn) s = .next t ∧ t.status = .halted (.fatal .stackOverflow s.instrAddr) ∧
      KeepsBut (fun p => p = .status) s t)

/-- CALL followed by RET restores PC to the address after the call and the stack to what it was, for any target and any depth below
the capacity, whatever the subroutine did elsewhere (R71). -/
def Obligations.CallThenReturnRestoresPc : Prop :=
  ∀ (nnn : Addr12) (s : State), s.params.stackCapacity ≠ some s.sp →
    ∃ t, exec (.call nnn) s = .next t ∧
      (∀ x, t.reg x = s.reg x) ∧ (∀ a, t.mem.read a = s.mem.read a) ∧
      ∀ u : State, u.stack = t.stack →
        ∃ v, exec .ret u = .next v ∧ v.pc = s.pc ∧ v.stack = s.stack ∧
          KeepsBut (fun p => p = .pc ∨ p = .stack) u v

/-- SE Vx,nn and SNE Vx,nn advance PC by 2 more iff V[x] = nn, respectively V[x] ≠ nn (R66, R67). -/
def Obligations.ImmediateSkips : Prop :=
  (∀ w, opField w = 0x3 → decode w = .instr (.seImm (xField w) (nnField w))) ∧
  (∀ w, opField w = 0x4 → decode w = .instr (.sneImm (xField w) (nnField w))) ∧
  ∀ (x : Reg) (nn : Byte) (s : State),
    (∃ t, exec (.seImm x nn) s = .next t ∧ (s.reg x = nn → t.pc = s.pc + 2) ∧ (s.reg x ≠ nn → t.pc = s.pc) ∧
      KeepsBut (fun p => p = .pc) s t) ∧
    (∃ t, exec (.sneImm x nn) s = .next t ∧ (s.reg x ≠ nn → t.pc = s.pc + 2) ∧ (s.reg x = nn → t.pc = s.pc) ∧
      KeepsBut (fun p => p = .pc) s t)

/-- SE Vx,Vy and SNE Vx,Vy, whatever n is: x = y always skips with SE and never with SNE (R68, R69, D11). -/
def Obligations.RegisterSkips : Prop :=
  (∀ w, opField w = 0x5 → decode w = .instr (.seReg (xField w) (yField w))) ∧
  (∀ w, opField w = 0x9 → decode w = .instr (.sneReg (xField w) (yField w))) ∧
  ∀ (x y : Reg) (s : State),
    (∃ t, exec (.seReg x y) s = .next t ∧ (s.reg x = s.reg y → t.pc = s.pc + 2) ∧ (s.reg x ≠ s.reg y → t.pc = s.pc) ∧
      KeepsBut (fun p => p = .pc) s t) ∧
    (∃ t, exec (.sneReg x y) s = .next t ∧ (s.reg x ≠ s.reg y → t.pc = s.pc + 2) ∧ (s.reg x = s.reg y → t.pc = s.pc) ∧
      KeepsBut (fun p => p = .pc) s t)

/-- JP V0,nnn: PC is the sum, not reduced to 12 bits (R70, D22). -/
def Obligations.IndexedJumpAddsV0 : Prop :=
  (∀ w, opField w = 0xB → decode w = .instr (.jpV0 (nnnField w))) ∧
  ∀ (nnn : Addr12) (s : State), ∃ t, exec (.jpV0 nnn) s = .next t ∧ t.pc.toNat = (s.reg 0).toNat + nnn.toNat ∧
    KeepsBut (fun p => p = .pc) s t

/-! ### Registers and arithmetic -/

/-- LD Vx,nn; ADD Vx,nn modulo 256 with no flag; LD Vx,Vy (R81, R82, R83). -/
def Obligations.LoadsAndAddImmediate : Prop :=
  (∀ w, opField w = 0x6 → decode w = .instr (.ldImm (xField w) (nnField w))) ∧
  (∀ w, opField w = 0x7 → decode w = .instr (.addImm (xField w) (nnField w))) ∧
  (∀ w, opField w = 0x8 → (nField w).val = 0x0 → decode w = .instr (.ldReg (xField w) (yField w))) ∧
  ∀ (x y : Reg) (nn : Byte) (s : State),
    (∃ t, exec (.ldImm x nn) s = .next t ∧ t.reg x = nn ∧ KeepsBut (fun p => p = .reg x) s t) ∧
    (∃ t, exec (.addImm x nn) s = .next t ∧ (t.reg x).toNat = ((s.reg x).toNat + nn.toNat) % 256 ∧
      KeepsBut (fun p => p = .reg x) s t) ∧
    (∃ t, exec (.ldReg x y) s = .next t ∧ t.reg x = s.reg y ∧ KeepsBut (fun p => p = .reg x) s t)

/-- OR, AND, XOR Vx,Vy bit by bit; VF is unchanged unless x = F (R84, R85, R86). -/
def Obligations.BitwiseOperations : Prop :=
  (∀ w, opField w = 0x8 → (nField w).val = 0x1 → decode w = .instr (.orReg (xField w) (yField w))) ∧
  (∀ w, opField w = 0x8 → (nField w).val = 0x2 → decode w = .instr (.andReg (xField w) (yField w))) ∧
  (∀ w, opField w = 0x8 → (nField w).val = 0x3 → decode w = .instr (.xorReg (xField w) (yField w))) ∧
  ∀ (x y : Reg) (s : State),
    (∃ t, exec (.orReg x y) s = .next t ∧
      (∀ k, (t.reg x).getLsbD k = true ↔ (s.reg x).getLsbD k = true ∨ (s.reg y).getLsbD k = true) ∧
      KeepsBut (fun p => p = .reg x) s t) ∧
    (∃ t, exec (.andReg x y) s = .next t ∧
      (∀ k, (t.reg x).getLsbD k = true ↔ (s.reg x).getLsbD k = true ∧ (s.reg y).getLsbD k = true) ∧
      KeepsBut (fun p => p = .reg x) s t) ∧
    (∃ t, exec (.xorReg x y) s = .next t ∧
      (∀ k, (t.reg x).getLsbD k = true ↔ (s.reg x).getLsbD k ≠ (s.reg y).getLsbD k) ∧
      KeepsBut (fun p => p = .reg x) s t)

/-- ADD Vx,Vy: VF is the carry, written last, so that x = F leaves the carry in VF; otherwise V[x] is the low 8 bits of the sum
(R87). -/
def Obligations.AddRegistersSetsCarry : Prop :=
  (∀ w, opField w = 0x8 → (nField w).val = 0x4 → decode w = .instr (.addReg (xField w) (yField w))) ∧
  ∀ (x y : Reg) (s : State), ∃ t, exec (.addReg x y) s = .next t ∧
    t.reg 15 = (if (s.reg x).toNat + (s.reg y).toNat > 255 then 1 else 0) ∧
    (x ≠ 15 → (t.reg x).toNat = ((s.reg x).toNat + (s.reg y).toNat) % 256) ∧
    KeepsBut (fun p => p = .reg x ∨ p = .reg 15) s t

/-- SUB Vx,Vy and SUBN Vx,Vy: VF is NOT borrow, written last; otherwise V[x] is the 8-bit wraparound difference (R88, R90). -/
def Obligations.SubtractionsSetNotBorrow : Prop :=
  (∀ w, opField w = 0x8 → (nField w).val = 0x5 → decode w = .instr (.subReg (xField w) (yField w))) ∧
  (∀ w, opField w = 0x8 → (nField w).val = 0x7 → decode w = .instr (.subn (xField w) (yField w))) ∧
  ∀ (x y : Reg) (s : State),
    (∃ t, exec (.subReg x y) s = .next t ∧
      t.reg 15 = (if (s.reg y).toNat > (s.reg x).toNat then 0 else 1) ∧
      (x ≠ 15 → (t.reg x).toNat = (256 + (s.reg x).toNat - (s.reg y).toNat) % 256) ∧
      KeepsBut (fun p => p = .reg x ∨ p = .reg 15) s t) ∧
    (∃ t, exec (.subn x y) s = .next t ∧
      t.reg 15 = (if (s.reg x).toNat > (s.reg y).toNat then 0 else 1) ∧
      (x ≠ 15 → (t.reg x).toNat = (256 + (s.reg y).toNat - (s.reg x).toNat) % 256) ∧
      KeepsBut (fun p => p = .reg x ∨ p = .reg 15) s t)

/-- SHR and SHL by one, of V[y] or of V[x] by `P_SHIFT_SOURCE`: VF is the bit shifted out, written last (R89, R91, D3). -/
def Obligations.ShiftsSetTheBitShiftedOut : Prop :=
  (∀ w, opField w = 0x8 → (nField w).val = 0x6 → decode w = .instr (.shr (xField w) (yField w))) ∧
  (∀ w, opField w = 0x8 → (nField w).val = 0xE → decode w = .instr (.shl (xField w) (yField w))) ∧
  ∀ (x y z : Reg) (s : State), (s.params.shiftSource = .vy ∧ z = y) ∨ (s.params.shiftSource = .vx ∧ z = x) →
    (∃ t, exec (.shr x y) s = .next t ∧ (t.reg 15).toNat = (s.reg z).toNat % 2 ∧
      (x ≠ 15 → (t.reg x).toNat = (s.reg z).toNat / 2) ∧ KeepsBut (fun p => p = .reg x ∨ p = .reg 15) s t) ∧
    (∃ t, exec (.shl x y) s = .next t ∧ (t.reg 15).toNat = (s.reg z).toNat / 128 ∧
      (x ≠ 15 → (t.reg x).toNat = (s.reg z).toNat * 2 % 256) ∧ KeepsBut (fun p => p = .reg x ∨ p = .reg 15) s t)

/-- RND Vx,nn: V[x] is the drawn byte AND nn; the draw is the free value of the draw counter, whatever it is (R93, D24; entry 3). -/
def Obligations.RandomByteIsMasked : Prop :=
  (∀ w, opField w = 0xC → decode w = .instr (.rnd (xField w) (nnField w))) ∧
  ∀ (x : Reg) (nn : Byte) (s : State), ∃ t, exec (.rnd x nn) s = .next t ∧
    t.reg x = Config.randomByte s.draws &&& nn ∧ t.draws = s.draws + 1 ∧
    KeepsBut (fun p => p = .reg x ∨ p = .draws) s t

/-! ### Index register and memory transfers -/

/-- LD I,nnn; ADD I,Vx modulo 65536 with no flag; LD F,Vx by the low nibble (R100, R101, R102). -/
def Obligations.IndexRegisterInstructions : Prop :=
  (∀ w, opField w = 0xA → decode w = .instr (.ldI (nnnField w))) ∧
  (∀ w, opField w = 0xF → (nnField w).toNat = 0x1E → decode w = .instr (.addI (xField w))) ∧
  (∀ w, opField w = 0xF → (nnField w).toNat = 0x29 → decode w = .instr (.ldF (xField w))) ∧
  ∀ (x : Reg) (nnn : Addr12) (s : State),
    (∃ t, exec (.ldI nnn) s = .next t ∧ t.i.toNat = nnn.toNat ∧ KeepsBut (fun p => p = .index) s t) ∧
    (∃ t, exec (.addI x) s = .next t ∧ t.i.toNat = (s.i.toNat + (s.reg x).toNat) % 65536 ∧
      KeepsBut (fun p => p = .index) s t) ∧
    (∃ t, exec (.ldF x) s = .next t ∧ t.i.toNat = 5 * ((s.reg x).toNat % 16) ∧ KeepsBut (fun p => p = .index) s t)

/-- LD B,Vx: the decimal digits go to I, I + 1, I + 2 and I is unchanged; out of range it halts and writes no byte (R103, D10). -/
def Obligations.BcdStoresThreeDigits : Prop :=
  (∀ w, opField w = 0xF → (nnField w).toNat = 0x33 → decode w = .instr (.ldB (xField w))) ∧
  (∀ (x : Reg) (s : State), s.i.toNat + 2 ≤ 0xFFF →
    ∃ t, exec (.ldB x) s = .next t ∧
      (t.mem.read s.i.toNat).toNat = (s.reg x).toNat / 100 ∧
      (t.mem.read (s.i.toNat + 1)).toNat = (s.reg x).toNat / 10 % 10 ∧
      (t.mem.read (s.i.toNat + 2)).toNat = (s.reg x).toNat % 10 ∧
      KeepsBut (fun p => ∃ k, k ≤ 2 ∧ p = .byte (s.i.toNat + k)) s t) ∧
  (∀ (x : Reg) (s : State), 0xFFF < s.i.toNat + 2 →
    ∃ t, exec (.ldB x) s = .next t ∧
      t.status = .halted (.fatal (.addressOutOfRange (.address (max s.i.toNat 0x1000))) s.instrAddr) ∧
      KeepsBut (fun p => p = .status) s t)

/-- LD [I],Vx: V0..Vx go to I..I + x in order; I advances by x + 1 modulo 65536 iff `P_LOADSTORE_INC_I`; out of range it halts and
writes nothing (R104, D4, D10). -/
def Obligations.RegisterDumpStoresInOrder : Prop :=
  (∀ w, opField w = 0xF → (nnField w).toNat = 0x55 → decode w = .instr (.storeRegs (xField w))) ∧
  (∀ (x : Reg) (s : State), s.i.toNat + x.val ≤ 0xFFF →
    ∃ t, exec (.storeRegs x) s = .next t ∧
      (∀ k : Reg, k.val ≤ x.val → t.mem.read (s.i.toNat + k.val) = s.reg k) ∧
      (s.params.loadStoreIncI = true → t.i.toNat = (s.i.toNat + x.val + 1) % 65536) ∧
      (s.params.loadStoreIncI = false → t.i = s.i) ∧
      KeepsBut (fun p => p = .index ∨ ∃ k, k ≤ x.val ∧ p = .byte (s.i.toNat + k)) s t) ∧
  (∀ (x : Reg) (s : State), 0xFFF < s.i.toNat + x.val →
    ∃ t, exec (.storeRegs x) s = .next t ∧
      t.status = .halted (.fatal (.addressOutOfRange (.address (max s.i.toNat 0x1000))) s.instrAddr) ∧
      KeepsBut (fun p => p = .status) s t)

/-- LD Vx,[I]: I..I + x go to V0..Vx in order and the registers above x are unchanged; I as in the dump; out of range it halts and
changes no register (R105, D4, D10). -/
def Obligations.RegisterLoadReadsInOrder : Prop :=
  (∀ w, opField w = 0xF → (nnField w).toNat = 0x65 → decode w = .instr (.loadRegs (xField w))) ∧
  (∀ (x : Reg) (s : State), s.i.toNat + x.val ≤ 0xFFF →
    ∃ t, exec (.loadRegs x) s = .next t ∧
      (∀ k : Reg, k.val ≤ x.val → t.reg k = s.mem.read (s.i.toNat + k.val)) ∧
      (s.params.loadStoreIncI = true → t.i.toNat = (s.i.toNat + x.val + 1) % 65536) ∧
      (s.params.loadStoreIncI = false → t.i = s.i) ∧
      KeepsBut (fun p => p = .index ∨ ∃ k : Reg, k.val ≤ x.val ∧ p = .reg k) s t) ∧
  (∀ (x : Reg) (s : State), 0xFFF < s.i.toNat + x.val →
    ∃ t, exec (.loadRegs x) s = .next t ∧
      t.status = .halted (.fatal (.addressOutOfRange (.address (max s.i.toNat 0x1000))) s.instrAddr) ∧
      KeepsBut (fun p => p = .status) s t)

/-- The load is the inverse of the dump: loading V0..Vx from where they were dumped gives them back, whatever happened to the
registers in between (R104, R105). -/
def Obligations.LoadInvertsDump : Prop :=
  ∀ (x : Reg) (s t u : State), s.i.toNat + x.val ≤ 0xFFF → exec (.storeRegs x) s = .next t → u.mem = t.mem → u.i = s.i →
    ∃ v, exec (.loadRegs x) u = .next v ∧ (∀ k : Reg, k.val ≤ x.val → v.reg k = s.reg k) ∧
      (∀ k : Reg, x.val < k.val → v.reg k = u.reg k)

/-! ### Display -/

/-- CLS clears every pixel and signals one strobe; VF is unchanged (R115; that a strobe is counted is entry 10). -/
def Obligations.ClearScreenClearsEveryPixel : Prop :=
  decode 0x00E0 = .instr .cls ∧
  ∀ s : State, ∃ t, exec .cls s = .next t ∧ (∀ r c, pixel t.fb r c = false) ∧ t.strobes = s.strobes + 1 ∧
    KeepsBut (fun p => p = .strobes ∨ ∃ r c, p = .pixel r c) s t

/-- DRW flips exactly the pixels a set bit of the sprite wraps to, the origin read before VF is written; VF is 1 iff one of them was
1 before, else 0; one strobe (R116, R117; D6, D10, D16). -/
def Obligations.DrawXorsTheWrappedSprite : Prop :=
  (∀ w, opField w = 0xD → decode w = .instr (.drw (xField w) (yField w) (nField w))) ∧
  ∀ (x y : Reg) (n : Fin 16) (s : State), Drawable s x y n →
    ∃ t, exec (.drw x y n) s = .next t ∧
      (∀ r c, SpriteLands s x y n r c → pixel t.fb r c = !pixel s.fb r c) ∧
      (∀ r c, ¬ SpriteLands s x y n r c → pixel t.fb r c = pixel s.fb r c) ∧
      ((∃ r c, SpriteLands s x y n r c ∧ pixel s.fb r c = true) → t.reg 15 = 1) ∧
      ((∀ r c, SpriteLands s x y n r c → pixel s.fb r c = false) → t.reg 15 = 0) ∧
      t.strobes = s.strobes + 1 ∧
      KeepsBut (fun p => p = .reg 15 ∨ p = .strobes ∨ ∃ r c, p = .pixel r c) s t

/-- Drawing the same sprite twice, x and y not being F, returns the framebuffer to what it was (R118; the second state may differ
from the first draw's in PC, timers, latch, status and turns). By R116 the second draw sets VF iff the sprite lands on a pixel that
was 0 before the first; the last sentence of R118 says otherwise and does not follow from R116 (entry 15). -/
def Obligations.DrawingTwiceRestoresTheFramebuffer : Prop :=
  ∀ (x y : Reg) (n : Fin 16) (s t u : State), x ≠ 15 → y ≠ 15 → Drawable s x y n → exec (.drw x y n) s = .next t →
    u.reg x = t.reg x → u.reg y = t.reg y → u.i = t.i → u.mem = t.mem → u.fb = t.fb → u.params = t.params →
    ∃ v, exec (.drw x y n) u = .next v ∧ v.fb = s.fb ∧
      ((∃ r c, SpriteLands s x y n r c ∧ pixel s.fb r c = false) → v.reg 15 = 1) ∧
      ((∀ r c, SpriteLands s x y n r c → pixel s.fb r c = true) → v.reg 15 = 0)

/-- What R116 gives of the last sentence of R118: in the second of two identical draws VF = 1 only if the sprite has a set bit, and,
where the sprite lands on no pixel that was 1 before the first draw, VF = 1 if and only if it has one. Where it lands on such pixels
alone R116 gives VF = 0, which contradicts that sentence (entry 15). -/
def Obligations.SecondDrawReportsTheSpriteOnClearPixels : Prop :=
  ∀ (x y : Reg) (n : Fin 16) (s t u : State), x ≠ 15 → y ≠ 15 → Drawable s x y n → exec (.drw x y n) s = .next t →
    u.reg x = t.reg x → u.reg y = t.reg y → u.i = t.i → u.mem = t.mem → u.fb = t.fb → u.params = t.params →
    ∃ v, exec (.drw x y n) u = .next v ∧ (v.reg 15 = 1 → ∃ k j, SpriteBit s n k j) ∧
      ((∀ r c, SpriteLands s x y n r c → pixel s.fb r c = false) → (v.reg 15 = 1 ↔ ∃ k j, SpriteBit s n k j))

/-! ### Timers and input -/

/-- LD Vx,DT; LD DT,Vx; LD ST,Vx copy between a register and the named timer (R127, R128, R129). -/
def Obligations.TimerTransfersCopy : Prop :=
  (∀ w, opField w = 0xF → (nnField w).toNat = 0x07 → decode w = .instr (.ldVxDT (xField w))) ∧
  (∀ w, opField w = 0xF → (nnField w).toNat = 0x15 → decode w = .instr (.ldDTVx (xField w))) ∧
  (∀ w, opField w = 0xF → (nnField w).toNat = 0x18 → decode w = .instr (.ldSTVx (xField w))) ∧
  ∀ (x : Reg) (s : State),
    (∃ t, exec (.ldVxDT x) s = .next t ∧ t.reg x = s.dt ∧ KeepsBut (fun p => p = .reg x) s t) ∧
    (∃ t, exec (.ldDTVx x) s = .next t ∧ t.dt = s.reg x ∧ KeepsBut (fun p => p = .dt) s t) ∧
    (∃ t, exec (.ldSTVx x) s = .next t ∧ t.st = s.reg x ∧ KeepsBut (fun p => p = .st) s t)

/-- SKP and SKNP skip by the latch entry the register names; a value above 15 names none and halts (R125, R126, D7). -/
def Obligations.KeySkipsTestTheLatch : Prop :=
  (∀ w, opField w = 0xE → (nnField w).toNat = 0x9E → decode w = .instr (.skp (xField w))) ∧
  (∀ w, opField w = 0xE → (nnField w).toNat = 0xA1 → decode w = .instr (.sknp (xField w))) ∧
  (∀ (x : Reg) (k : Key) (s : State), (s.reg x).toNat = k.val →
    (∃ t, exec (.skp x) s = .next t ∧ (s.keyDown k = true → t.pc = s.pc + 2) ∧ (s.keyDown k = false → t.pc = s.pc) ∧
      KeepsBut (fun p => p = .pc) s t) ∧
    (∃ t, exec (.sknp x) s = .next t ∧ (s.keyDown k = false → t.pc = s.pc + 2) ∧ (s.keyDown k = true → t.pc = s.pc) ∧
      KeepsBut (fun p => p = .pc) s t)) ∧
  (∀ (x : Reg) (s : State) (i : Instr), i = .skp x ∨ i = .sknp x → 15 < (s.reg x).toNat →
    ∃ t, exec i s = .next t ∧
      t.status = .halted (.fatal (.addressOutOfRange (.key (s.reg x))) s.instrAddr) ∧
      KeepsBut (fun p => p = .status) s t)
end

