-- ==== Sys2Proof/Laws/Memory.lean ====
section
/-! SUPPORT. The laws of memory (20_memory.md): read after write, the canonical form, sequences of bytes, the address check. -/

namespace Sys2Proof.Machine

/-! ### One cell -/

theorem Memory.read_put_same (m : Memory) (a : Nat) (x : Byte) : (m.put a x).read a = x := by
  induction m with
  | nil => simp [Memory.put, Memory.read]
  | cons c rest ih =>
    obtain ⟨b, y⟩ := c
    by_cases h1 : a < b
    · simp [Memory.put, Memory.read, h1]
    · by_cases h2 : a = b
      · simp [Memory.put, Memory.read, h2]
      · have h3 : ¬ b = a := fun e => h2 e.symm
        simp [Memory.put, Memory.read, h1, h2, h3, ih]

theorem Memory.read_put_other (m : Memory) {a b : Nat} (x : Byte) (h : b ≠ a) : (m.put a x).read b = m.read b := by
  induction m with
  | nil => simp [Memory.put, Memory.read, Ne.symm h]
  | cons c rest ih =>
    obtain ⟨d, y⟩ := c
    by_cases h1 : a < d
    · simp [Memory.put, Memory.read, h1, Ne.symm h]
    · by_cases h2 : a = d
      · subst h2
        simp [Memory.put, Memory.read, Ne.symm h]
      · simp [Memory.put, Memory.read, h1, h2, ih]

theorem Memory.read_erase_other (m : Memory) {a b : Nat} (h : b ≠ a) : (m.erase a).read b = m.read b := by
  induction m with
  | nil => rfl
  | cons c rest ih =>
    obtain ⟨d, y⟩ := c
    by_cases h1 : d = a
    · subst h1
      simp [Memory.erase, Memory.read, Ne.symm h, ih]
    · simp [Memory.erase, Memory.read, h1, ih]

/-- Cells from `lo` on list nothing below `lo`. -/
theorem Memory.read_below {lo : Nat} {m : Memory} (h : Memory.wfFrom lo m = true) {a : Nat} (ha : a < lo) :
    m.read a = unlistedByte a := by
  induction m generalizing lo with
  | nil => rfl
  | cons c rest ih =>
    obtain ⟨d, y⟩ := c
    simp only [Memory.wfFrom, Bool.and_eq_true, decide_eq_true_eq] at h
    obtain ⟨⟨⟨h1, -⟩, -⟩, h4⟩ := h
    have hd : ¬ d = a := by omega
    simp [Memory.read, hd, ih h4 (by omega)]

theorem Memory.read_erase_same (m : Memory) (a : Nat) : (m.erase a).read a = unlistedByte a := by
  induction m with
  | nil => rfl
  | cons c rest ih =>
    obtain ⟨d, y⟩ := c
    by_cases h1 : d = a <;> simp [Memory.erase, Memory.read, h1, ih]

theorem Memory.wfFrom_mono {lo lo' : Nat} {m : Memory} (h : Memory.wfFrom lo m = true) (hl : lo' ≤ lo) :
    Memory.wfFrom lo' m = true := by
  cases m with
  | nil => rfl
  | cons c rest =>
    obtain ⟨d, y⟩ := c
    simp only [Memory.wfFrom, Bool.and_eq_true, decide_eq_true_eq] at h ⊢
    exact ⟨⟨⟨by omega, h.1.1.2⟩, h.1.2⟩, h.2⟩

theorem Memory.wfFrom_put {lo : Nat} {m : Memory} (h : Memory.wfFrom lo m = true) {a : Nat} {x : Byte}
    (hl : lo ≤ a) (ha : a < memorySize) (hx : x ≠ unlistedByte a) : Memory.wfFrom lo (m.put a x) = true := by
  induction m generalizing lo with
  | nil => simp [Memory.put, Memory.wfFrom, hl, hx, ha]
  | cons c rest ih =>
    obtain ⟨d, y⟩ := c
    simp only [Memory.wfFrom, Bool.and_eq_true, decide_eq_true_eq] at h
    obtain ⟨⟨⟨h1, h2⟩, h3⟩, h4⟩ := h
    by_cases h5 : a < d
    · have : a + 1 ≤ d := h5
      simp [Memory.put, Memory.wfFrom, h2, h3, h4, h5, hl, ha, hx, this]
    · by_cases h6 : a = d
      · subst h6
        simp [Memory.put, Memory.wfFrom, h4, hl, ha, hx]
      · have := ih h4 (by omega)
        simp [Memory.put, Memory.wfFrom, h1, h2, h3, h5, h6, this]

theorem Memory.wfFrom_erase {lo : Nat} {m : Memory} (h : Memory.wfFrom lo m = true) (a : Nat) :
    Memory.wfFrom lo (m.erase a) = true := by
  induction m generalizing lo with
  | nil => rfl
  | cons c rest ih =>
    obtain ⟨d, y⟩ := c
    have hc := h
    simp only [Memory.wfFrom, Bool.and_eq_true, decide_eq_true_eq] at h
    obtain ⟨⟨⟨h1, h2⟩, h3⟩, h4⟩ := h
    by_cases h5 : d = a
    · simpa [Memory.erase, h5] using Memory.wfFrom_mono (ih h4) (by omega : lo ≤ d + 1)
    · simp [Memory.erase, Memory.wfFrom, h1, h2, h3, h5, ih h4]

/-! ### `Memory.write` -/

/-- A written byte is read back (R39). -/
theorem Memory.read_write_same (m : Memory) {a : Nat} (ha : a < memorySize) (x : Byte) :
    (m.write a x).read a = x := by
  unfold Memory.write
  rw [if_pos ha]
  split
  · next hx => rw [Memory.read_erase_same, hx]
  · exact Memory.read_put_same m a x

/-- A write leaves every other byte alone (R39). -/
theorem Memory.read_write_other (m : Memory) {a b : Nat} (x : Byte) (h : b ≠ a) : (m.write a x).read b = m.read b := by
  unfold Memory.write
  split
  · split
    · exact Memory.read_erase_other m h
    · exact Memory.read_put_other m x h
  · rfl

/-- Every write keeps the canonical form. -/
theorem Memory.wf_write {m : Memory} (h : m.wf = true) (a : Nat) (x : Byte) : (m.write a x).wf = true := by
  unfold Memory.write
  split
  · next ha =>
    split
    · exact Memory.wfFrom_erase h a
    · next hx => exact Memory.wfFrom_put h (Nat.zero_le a) ha hx
  · exact h

theorem Memory.wf_nil : Memory.wf [] = true := rfl

/-! ### Sequences of bytes -/

@[simp] theorem Memory.length_readList (m : Memory) (a n : Nat) : (m.readList a n).length = n := by
  induction n generalizing a with
  | zero => rfl
  | succ n ih => simp [Memory.readList, ih]

/-- The k-th byte read from `a` on is the byte at `a + k` (R106). -/
theorem Memory.getElem_readList (m : Memory) (a n k : Nat) (h : k < n) :
    (m.readList a n)[k]'(by simpa using h) = m.read (a + k) := by
  induction n generalizing a k with
  | zero => omega
  | succ n ih =>
    cases k with
    | zero => simp [Memory.readList]
    | succ k =>
      have := ih (a + 1) k (by omega)
      simpa [Memory.readList, Nat.add_assoc, Nat.add_comm 1 k] using this

/-- Reads of a range see only that range. -/
theorem Memory.readList_congr {m m' : Memory} {a n : Nat} (h : ∀ k, k < n → m'.read (a + k) = m.read (a + k)) :
    m'.readList a n = m.readList a n := by
  refine List.ext_getElem (by simp) fun k h1 h2 => ?_
  have hk : k < n := by simpa using h1
  rw [Memory.getElem_readList _ _ _ _ hk, Memory.getElem_readList _ _ _ _ hk, h k hk]

theorem Memory.wf_writeList {m : Memory} (h : m.wf = true) (a : Nat) (xs : List Byte) : (m.writeList a xs).wf = true := by
  induction xs generalizing m a with
  | nil => exact h
  | cons x xs ih => exact ih (Memory.wf_write h a x) (a + 1)

/-- Outside the written bytes memory is as before. -/
theorem Memory.read_writeList_outside (m : Memory) (a : Nat) (xs : List Byte) {b : Nat} (h : b < a ∨ a + xs.length ≤ b) :
    (m.writeList a xs).read b = m.read b := by
  induction xs generalizing m a with
  | nil => rfl
  | cons x xs ih =>
    simp only [List.length_cons] at h
    rw [Memory.writeList, ih _ (a + 1) (by omega), Memory.read_write_other m x (by omega)]

/-- The k-th written byte is read back at `a + k`. -/
theorem Memory.read_writeList_inside (m : Memory) (a : Nat) (xs : List Byte) (k : Nat) (hk : k < xs.length)
    (ha : a + xs.length ≤ memorySize) : (m.writeList a xs).read (a + k) = xs[k] := by
  induction xs generalizing m a k with
  | nil => simp at hk
  | cons x xs ih =>
    simp only [List.length_cons] at ha hk
    cases k with
    | zero =>
      rw [Memory.writeList, Memory.read_writeList_outside _ (a + 1) xs (by omega)]
      simpa using Memory.read_write_same m (by omega : a < memorySize) x
    | succ k =>
      have := ih (m.write a x) (a + 1) k (by omega) (by omega)
      simpa [Memory.writeList, Nat.add_assoc, Nat.add_comm 1 k] using this

/-! ### The address check -/

/-- An access passes the check iff it has no byte or all its bytes lie in 0x000..0xFFF (R33). -/
theorem firstBad_eq_none {lo len : Nat} : firstBad lo len = none ↔ len = 0 ∨ lo + len ≤ memorySize := by
  unfold firstBad memorySize
  split <;> simp <;> omega

/-- A failed check names the lowest address of the range above 0xFFF (R141, R148). -/
theorem firstBad_eq_some {lo len a : Nat} :
    firstBad lo len = some a ↔ 0 < len ∧ memorySize < lo + len ∧ a = max lo 0x1000 := by
  unfold firstBad memorySize
  split <;> simp <;> omega

/-! ### Words in memory -/

/-- The two bytes of a word form the word again (R36). -/
@[simp] theorem wordOfBytes_bytes (w : Word) : wordOfBytes (highByte w) (lowByte w) = w := by
  apply BitVec.eq_of_toNat_eq
  have := w.isLt
  simp [wordOfBytes, highByte, lowByte]
  omega

/-- `wordOfBytes` is the concatenation of R36. -/
theorem wordOfBytes_eq_append (hi lo : Byte) : wordOfBytes hi lo = hi ++ lo := by
  apply BitVec.eq_of_toNat_eq
  have h1 := hi.isLt
  have h2 := lo.isLt
  rw [BitVec.toNat_append, ← Nat.shiftLeft_add_eq_or_of_lt h2, Nat.shiftLeft_eq]
  simp [wordOfBytes]
  omega

end Sys2Proof.Machine
end

