-- ==== Sys2Proof/Laws/Display.lean ====
section
/-! SUPPORT. The laws of the framebuffer and of sprite drawing (44_display.md R116, R118). -/

namespace Sys2Proof.Machine

/-- A toggle flips one pixel and leaves every other alone. -/
theorem pixel_togglePixel (fb : Framebuffer) (r r' : Fin 32) (c c' : Fin 64) :
    pixel (togglePixel fb r c) r' c' = if r' = r ∧ c' = c then !pixel fb r c else pixel fb r' c' := by
  by_cases hr : r' = r
  · subst hr
    by_cases hc : c' = c
    · subst hc
      simp [pixel, togglePixel]
    · have : ¬ c'.val = c.val := fun e => hc (Fin.ext e)
      simp [pixel, togglePixel, hc, this]
  · have : ¬ r.val = r'.val := fun e => hr (Fin.ext e.symm)
    simp [pixel, togglePixel, hr, this]

/-- Two planes that agree pixel by pixel are the same plane. -/
theorem Framebuffer.ext_pixel {f g : Framebuffer} (h : ∀ r c, pixel f r c = pixel g r c) : f = g := by
  apply Vector.ext
  intro r hr
  apply BitVec.eq_of_getLsbD_eq
  intro c hc
  exact h ⟨r, hr⟩ ⟨c, hc⟩

/-- Every pixel of the cleared plane is 0 (R115). -/
@[simp] theorem pixel_clearPlane (r : Fin 32) (c : Fin 64) : pixel clearPlane r c = false := by
  simp [pixel, clearPlane]

/-- The set bits of one sprite row (R116). -/
theorem mem_rowPixels {cx row : Nat} {b : Byte} {p : Nat × Nat} :
    p ∈ rowPixels cx row b ↔ ∃ j, j < 8 ∧ b.getLsbD (7 - j) = true ∧ p = (cx + j, row) := by
  simp only [rowPixels, List.mem_map, List.mem_filter, List.mem_range]
  constructor
  · rintro ⟨j, ⟨h1, h2⟩, rfl⟩
    exact ⟨j, h1, h2, rfl⟩
  · rintro ⟨j, h1, h2, rfl⟩
    exact ⟨j, ⟨h1, h2⟩, rfl⟩

/-- The set bits of a sprite: bit `7 - j` of its k-th byte stands at column `cx + j`, row `row + k` (R116). -/
theorem mem_spritePixels {cx row : Nat} {bs : List Byte} {p : Nat × Nat} :
    p ∈ spritePixels cx row bs ↔
      ∃ k j, ∃ h : k < bs.length, j < 8 ∧ bs[k].getLsbD (7 - j) = true ∧ p = (cx + j, row + k) := by
  induction bs generalizing row with
  | nil => simp [spritePixels]
  | cons b bs ih =>
    simp only [spritePixels, List.mem_append, mem_rowPixels, ih]
    constructor
    · rintro (⟨j, h1, h2, rfl⟩ | ⟨k, j, hk, h1, h2, rfl⟩)
      · exact ⟨0, j, by simp, h1, by simpa using h2, rfl⟩
      · exact ⟨k + 1, j, by simpa using hk, h1, by simpa using h2, by simp; omega⟩
    · rintro ⟨k, j, hk, h1, h2, rfl⟩
      cases k with
      | zero => exact .inl ⟨j, h1, by simpa using h2, rfl⟩
      | succ k => exact .inr ⟨k, j, by simpa using hk, h1, by simpa using h2, by simp; omega⟩

theorem nodup_wrap_rowPixels (cx row : Nat) (b : Byte) : ((rowPixels cx row b).map wrapPixel).Nodup := by
  rw [rowPixels, List.map_map, List.Nodup, List.pairwise_map]
  refine List.Pairwise.imp_of_mem ?_ (List.pairwise_lt_range.filter _)
  intro i j hi hj hij h
  have hi' := List.mem_range.mp (List.mem_filter.mp hi).1
  have hj' := List.mem_range.mp (List.mem_filter.mp hj).1
  have h2 : (cx + i) % 64 = (cx + j) % 64 := by simpa [wrapPixel, Fin.ofNat] using h
  omega

/-- A sprite of at most 32 rows toggles no pixel twice, even after wrapping (R116, last corner case). -/
theorem nodup_wrap_spritePixels (cx row : Nat) (bs : List Byte) (h : bs.length ≤ 32) :
    ((spritePixels cx row bs).map wrapPixel).Nodup := by
  induction bs generalizing row with
  | nil => simp [spritePixels]
  | cons b bs ih =>
    simp only [List.length_cons] at h
    rw [spritePixels, List.map_append]
    refine List.nodup_append.mpr ⟨nodup_wrap_rowPixels cx row b, ih _ (by omega), ?_⟩
    intro p hp q hq e
    obtain ⟨p', hp', rfl⟩ := List.mem_map.mp hp
    obtain ⟨q', hq', rfl⟩ := List.mem_map.mp hq
    obtain ⟨i, -, -, rfl⟩ := mem_rowPixels.mp hp'
    obtain ⟨k, j, hk, -, -, rfl⟩ := mem_spritePixels.mp hq'
    have e1 : row % 32 = (row + 1 + k) % 32 := by
      have := congrArg (fun q => q.1.val) e
      simpa [wrapPixel, Fin.ofNat] using this
    omega

/-- What drawing does to one pixel, when no pixel is toggled twice: it flips exactly the wrapped places (R116). -/
theorem pixel_drawPixels (ps : List (Nat × Nat)) (fb : Framebuffer) (c0 : Bool) (h : (ps.map wrapPixel).Nodup)
    (r : Fin 32) (c : Fin 64) :
    pixel (drawPixels ps fb c0).1 r c = (pixel fb r c ^^ decide ((r, c) ∈ ps.map wrapPixel)) := by
  induction ps generalizing fb c0 with
  | nil => simp [drawPixels]
  | cons p ps ih =>
    simp only [List.map_cons, List.nodup_cons] at h
    rw [drawPixels, ih _ _ h.2, pixel_togglePixel]
    by_cases e : (r, c) = wrapPixel p
    · have h1 : r = (wrapPixel p).1 := congrArg Prod.fst e
      have h2 : c = (wrapPixel p).2 := congrArg Prod.snd e
      have h3 : (r, c) ∉ ps.map wrapPixel := e ▸ h.1
      rw [if_pos ⟨h1, h2⟩, decide_eq_false h3, List.map_cons, decide_eq_true (e ▸ List.mem_cons_self), ← h1, ← h2]
      simp
    · have h1 : ¬ (r = (wrapPixel p).1 ∧ c = (wrapPixel p).2) := fun ⟨a, b⟩ => e (Prod.ext a b)
      rw [if_neg h1]
      congr 1
      simp [e]

/-- The collision of a draw that toggles no pixel twice: some toggled pixel was 1 before (R116). -/
theorem collision_drawPixels (ps : List (Nat × Nat)) (fb : Framebuffer) (c0 : Bool) (h : (ps.map wrapPixel).Nodup) :
    (drawPixels ps fb c0).2 = (c0 || ps.any fun p => pixel fb (wrapPixel p).1 (wrapPixel p).2) := by
  induction ps generalizing fb c0 with
  | nil => simp [drawPixels]
  | cons p ps ih =>
    simp only [List.map_cons, List.nodup_cons] at h
    rw [drawPixels, ih _ _ h.2, List.any_cons, Bool.or_assoc]
    congr 2
    refine Bool.eq_iff_iff.mpr ?_
    simp only [List.any_eq_true]
    refine exists_congr fun q => and_congr_right fun hq => ?_
    have : ¬ ((wrapPixel q).1 = (wrapPixel p).1 ∧ (wrapPixel q).2 = (wrapPixel p).2) := fun ⟨a, b⟩ =>
      h.1 (List.mem_map.mpr ⟨q, hq, Prod.ext a b⟩)
    rw [pixel_togglePixel, if_neg this]

/-! ### The sprite of DRW, in the terms of Safety.lean -/

/-- The pixels DRW toggles are its sprite's set bits, displaced by the origin (R116). -/
theorem mem_drwPixels {x y : Reg} {n : Fin 16} {s : State} {p : Nat × Nat} :
    p ∈ drwPixels x y n s ↔ ∃ k j, SpriteBit s n k j ∧ p = ((s.reg x).toNat + j, (s.reg y).toNat + k) := by
  rw [drwPixels, mem_spritePixels]
  constructor
  · rintro ⟨k, j, hk, h1, h2, rfl⟩
    have hk' : k < n.val := by simpa using hk
    rw [Memory.getElem_readList _ _ _ _ hk'] at h2
    exact ⟨k, j, ⟨hk', h1, h2⟩, rfl⟩
  · rintro ⟨k, j, ⟨hk, h1, h2⟩, rfl⟩
    exact ⟨k, j, by simpa using hk, h1, by rwa [Memory.getElem_readList _ _ _ _ hk], rfl⟩

/-- DRW toggles no pixel twice (R116). -/
theorem nodup_wrap_drwPixels (x y : Reg) (n : Fin 16) (s : State) : ((drwPixels x y n s).map wrapPixel).Nodup :=
  nodup_wrap_spritePixels _ _ _ (by have := n.isLt; simp; omega)

/-- The wrapped places DRW toggles (R116). -/
theorem spriteLands_iff {s : State} {x y : Reg} {n : Fin 16} {r : Fin 32} {c : Fin 64} :
    SpriteLands s x y n r c ↔ (r, c) ∈ (drwPixels x y n s).map wrapPixel := by
  rw [List.mem_map]
  constructor
  · rintro ⟨k, j, hb, h1, h2⟩
    exact ⟨_, mem_drwPixels.mpr ⟨k, j, hb, rfl⟩, Prod.ext (Fin.ext (by simpa [wrapPixel, Fin.ofNat] using h1))
      (Fin.ext (by simpa [wrapPixel, Fin.ofNat] using h2))⟩
  · rintro ⟨p, hp, e⟩
    obtain ⟨k, j, hb, rfl⟩ := mem_drwPixels.mp hp
    exact ⟨k, j, hb, by simpa [wrapPixel, Fin.ofNat] using congrArg (fun q => q.1.val) e,
      by simpa [wrapPixel, Fin.ofNat] using congrArg (fun q => q.2.val) e⟩

/-! ### The order of the set bits, for the first offending pixel of R117 -/

theorem rowPixels_leftToRight (cx row : Nat) (b : Byte) : (rowPixels cx row b).Pairwise fun p q => p.1 < q.1 := by
  rw [rowPixels, List.pairwise_map]
  exact (List.pairwise_lt_range.filter _).imp fun h => by simpa using h

/-- The set bits of a sprite come row by row and from the left in each row. -/
theorem spritePixels_rowByRow (cx row : Nat) (bs : List Byte) :
    (spritePixels cx row bs).Pairwise fun p q => p.2 < q.2 ∨ (p.2 = q.2 ∧ p.1 < q.1) := by
  induction bs generalizing row with
  | nil => simp [spritePixels]
  | cons b bs ih =>
    rw [spritePixels, List.pairwise_append]
    refine ⟨List.Pairwise.imp_of_mem ?_ (rowPixels_leftToRight cx row b), ih _, ?_⟩
    · intro p q hp hq h
      obtain ⟨_, _, _, rfl⟩ := mem_rowPixels.mp hp
      obtain ⟨_, _, _, rfl⟩ := mem_rowPixels.mp hq
      exact .inr ⟨rfl, h⟩
    · intro p hp q hq
      obtain ⟨_, _, _, rfl⟩ := mem_rowPixels.mp hp
      obtain ⟨_, _, _, _, _, rfl⟩ := mem_spritePixels.mp hq
      left
      simp
      omega

/-- A search of a list in strict order answers its first match. -/
theorem find?_eq_some_of_pairwise {α : Type} {R : α → α → Prop} (asym : ∀ a b, R a b → ¬ R b a) {l : List α}
    (hs : l.Pairwise R) (f : α → Bool) (a : α) :
    l.find? f = some a ↔ a ∈ l ∧ f a = true ∧ ∀ b ∈ l, R b a → f b = false := by
  induction l with
  | nil => simp
  | cons c l ih =>
    rw [List.pairwise_cons] at hs
    rw [List.find?_cons]
    cases hc : f c
    · simp only [ih hs.2]
      constructor
      · rintro ⟨h1, h2, h3⟩
        refine ⟨.tail _ h1, h2, fun b hb hr => ?_⟩
        rcases List.mem_cons.mp hb with rfl | hb
        · exact hc
        · exact h3 b hb hr
      · rintro ⟨h1, h2, h3⟩
        rcases List.mem_cons.mp h1 with rfl | h1
        · rw [hc] at h2
          cases h2
        · exact ⟨h1, h2, fun b hb => h3 b (.tail _ hb)⟩
    · simp only [Option.some.injEq]
      constructor
      · rintro rfl
        refine ⟨List.mem_cons_self, hc, fun b hb hr => ?_⟩
        rcases List.mem_cons.mp hb with rfl | hb
        · exact absurd hr (asym _ _ hr)
        · exact absurd hr (asym _ _ (hs.1 b hb))
      · rintro ⟨h1, -, h3⟩
        rcases List.mem_cons.mp h1 with rfl | h1
        · rfl
        · have := h3 c List.mem_cons_self (hs.1 a h1)
          rw [hc] at this
          cases this

/-- The coordinate check passes iff in Fault mode no set bit is outside the plane (R117). -/
theorem offScreen_eq_none {s : State} {x y : Reg} {n : Fin 16} :
    offScreen s.params.drawCoord (drwPixels x y n s) = none ↔
      (s.params.drawCoord = .fault → ∀ k j, SpriteBit s n k j → ¬ SpriteOff s x y k j) := by
  unfold offScreen
  cases hd : s.params.drawCoord
  · simp
  · simp only [List.find?_eq_none, true_imp_iff]
    constructor
    · intro h k j hb ho
      have := h _ (mem_drwPixels.mpr ⟨k, j, hb, rfl⟩)
      unfold SpriteOff at ho
      simp at this
      omega
    · intro h p hp
      obtain ⟨k', j', hb', rfl⟩ := mem_drwPixels.mp hp
      have := h _ _ hb'
      unfold SpriteOff at this
      simp
      omega

/-- A failed coordinate check names the first set bit outside the plane (R117). -/
theorem offScreen_eq_some {s : State} {x y : Reg} {n : Fin 16} {col row : Nat} :
    offScreen s.params.drawCoord (drwPixels x y n s) = some (col, row) ↔
      s.params.drawCoord = .fault ∧
        ∃ k j, FirstSpriteOff s x y n k j ∧ col = (s.reg x).toNat + j ∧ row = (s.reg y).toNat + k := by
  unfold offScreen
  cases hd : s.params.drawCoord
  · simp
  · simp only [true_and]
    rw [find?_eq_some_of_pairwise (R := fun p q => p.2 < q.2 ∨ (p.2 = q.2 ∧ p.1 < q.1))
      (by rintro ⟨a, b⟩ ⟨c, d⟩ h; simp at *; omega) (spritePixels_rowByRow _ _ _)]
    constructor
    · rintro ⟨h1, h2, h3⟩
      obtain ⟨k, j, hb, e⟩ := mem_drwPixels.mp h1
      have e1 := congrArg Prod.fst e
      have e2 := congrArg Prod.snd e
      simp only at e1 e2
      subst e1 e2
      refine ⟨k, j, ⟨hb, by simpa [SpriteOff] using h2, ?_⟩, rfl, rfl⟩
      intro k' j' hb' hlt hoff
      have := h3 ((s.reg x).toNat + j', (s.reg y).toNat + k') (mem_drwPixels.mpr ⟨k', j', hb', rfl⟩) (by simp; omega)
      unfold SpriteOff at hoff
      simp at this
      omega
    · rintro ⟨k, j, ⟨hb, ho, hf⟩, rfl, rfl⟩
      refine ⟨mem_drwPixels.mpr ⟨k, j, hb, rfl⟩, by simpa [SpriteOff] using ho, ?_⟩
      intro p hp hr
      obtain ⟨k', j', hb', rfl⟩ := mem_drwPixels.mp hp
      have := hf k' j' hb' (by simp at hr; omega)
      unfold SpriteOff at this
      simp
      omega

end Sys2Proof.Machine
end

