-- ==== Sys2Proof/Laws/State.lean ====
section
/-! SUPPORT. One lemma per field per update of State, true by rfl, so that no proof unfolds an update; and reading one register after
writing another. -/

namespace Sys2Proof.Machine

/-! ### setReg -/

@[simp] theorem State.setReg_v (s : State) (x : Reg) (b : Byte) : (s.setReg x b).v = s.v.set x b := rfl
@[simp] theorem State.setReg_i (s : State) (x : Reg) (b : Byte) : (s.setReg x b).i = s.i := rfl
@[simp] theorem State.setReg_pc (s : State) (x : Reg) (b : Byte) : (s.setReg x b).pc = s.pc := rfl
@[simp] theorem State.setReg_stack (s : State) (x : Reg) (b : Byte) : (s.setReg x b).stack = s.stack := rfl
@[simp] theorem State.setReg_dt (s : State) (x : Reg) (b : Byte) : (s.setReg x b).dt = s.dt := rfl
@[simp] theorem State.setReg_st (s : State) (x : Reg) (b : Byte) : (s.setReg x b).st = s.st := rfl
@[simp] theorem State.setReg_fb (s : State) (x : Reg) (b : Byte) : (s.setReg x b).fb = s.fb := rfl
@[simp] theorem State.setReg_keys (s : State) (x : Reg) (b : Byte) : (s.setReg x b).keys = s.keys := rfl
@[simp] theorem State.setReg_status (s : State) (x : Reg) (b : Byte) : (s.setReg x b).status = s.status := rfl
@[simp] theorem State.setReg_stop (s : State) (x : Reg) (b : Byte) : (s.setReg x b).stop = s.stop := rfl
@[simp] theorem State.setReg_mem (s : State) (x : Reg) (b : Byte) : (s.setReg x b).mem = s.mem := rfl
@[simp] theorem State.setReg_strobes (s : State) (x : Reg) (b : Byte) : (s.setReg x b).strobes = s.strobes := rfl
@[simp] theorem State.setReg_params (s : State) (x : Reg) (b : Byte) : (s.setReg x b).params = s.params := rfl
@[simp] theorem State.setReg_schedule (s : State) (x : Reg) (b : Byte) : (s.setReg x b).schedule = s.schedule := rfl
@[simp] theorem State.setReg_draws (s : State) (x : Reg) (b : Byte) : (s.setReg x b).draws = s.draws := rfl

/-! ### setI -/

@[simp] theorem State.setI_v (s : State) (w : Word) : (s.setI w).v = s.v := rfl
@[simp] theorem State.setI_i (s : State) (w : Word) : (s.setI w).i = w := rfl
@[simp] theorem State.setI_pc (s : State) (w : Word) : (s.setI w).pc = s.pc := rfl
@[simp] theorem State.setI_stack (s : State) (w : Word) : (s.setI w).stack = s.stack := rfl
@[simp] theorem State.setI_dt (s : State) (w : Word) : (s.setI w).dt = s.dt := rfl
@[simp] theorem State.setI_st (s : State) (w : Word) : (s.setI w).st = s.st := rfl
@[simp] theorem State.setI_fb (s : State) (w : Word) : (s.setI w).fb = s.fb := rfl
@[simp] theorem State.setI_keys (s : State) (w : Word) : (s.setI w).keys = s.keys := rfl
@[simp] theorem State.setI_status (s : State) (w : Word) : (s.setI w).status = s.status := rfl
@[simp] theorem State.setI_stop (s : State) (w : Word) : (s.setI w).stop = s.stop := rfl
@[simp] theorem State.setI_mem (s : State) (w : Word) : (s.setI w).mem = s.mem := rfl
@[simp] theorem State.setI_strobes (s : State) (w : Word) : (s.setI w).strobes = s.strobes := rfl
@[simp] theorem State.setI_params (s : State) (w : Word) : (s.setI w).params = s.params := rfl
@[simp] theorem State.setI_schedule (s : State) (w : Word) : (s.setI w).schedule = s.schedule := rfl
@[simp] theorem State.setI_draws (s : State) (w : Word) : (s.setI w).draws = s.draws := rfl

/-! ### setDT -/

@[simp] theorem State.setDT_v (s : State) (b : Byte) : (s.setDT b).v = s.v := rfl
@[simp] theorem State.setDT_i (s : State) (b : Byte) : (s.setDT b).i = s.i := rfl
@[simp] theorem State.setDT_pc (s : State) (b : Byte) : (s.setDT b).pc = s.pc := rfl
@[simp] theorem State.setDT_stack (s : State) (b : Byte) : (s.setDT b).stack = s.stack := rfl
@[simp] theorem State.setDT_dt (s : State) (b : Byte) : (s.setDT b).dt = b := rfl
@[simp] theorem State.setDT_st (s : State) (b : Byte) : (s.setDT b).st = s.st := rfl
@[simp] theorem State.setDT_fb (s : State) (b : Byte) : (s.setDT b).fb = s.fb := rfl
@[simp] theorem State.setDT_keys (s : State) (b : Byte) : (s.setDT b).keys = s.keys := rfl
@[simp] theorem State.setDT_status (s : State) (b : Byte) : (s.setDT b).status = s.status := rfl
@[simp] theorem State.setDT_stop (s : State) (b : Byte) : (s.setDT b).stop = s.stop := rfl
@[simp] theorem State.setDT_mem (s : State) (b : Byte) : (s.setDT b).mem = s.mem := rfl
@[simp] theorem State.setDT_strobes (s : State) (b : Byte) : (s.setDT b).strobes = s.strobes := rfl
@[simp] theorem State.setDT_params (s : State) (b : Byte) : (s.setDT b).params = s.params := rfl
@[simp] theorem State.setDT_schedule (s : State) (b : Byte) : (s.setDT b).schedule = s.schedule := rfl
@[simp] theorem State.setDT_draws (s : State) (b : Byte) : (s.setDT b).draws = s.draws := rfl

/-! ### setST -/

@[simp] theorem State.setST_v (s : State) (b : Byte) : (s.setST b).v = s.v := rfl
@[simp] theorem State.setST_i (s : State) (b : Byte) : (s.setST b).i = s.i := rfl
@[simp] theorem State.setST_pc (s : State) (b : Byte) : (s.setST b).pc = s.pc := rfl
@[simp] theorem State.setST_stack (s : State) (b : Byte) : (s.setST b).stack = s.stack := rfl
@[simp] theorem State.setST_dt (s : State) (b : Byte) : (s.setST b).dt = s.dt := rfl
@[simp] theorem State.setST_st (s : State) (b : Byte) : (s.setST b).st = b := rfl
@[simp] theorem State.setST_fb (s : State) (b : Byte) : (s.setST b).fb = s.fb := rfl
@[simp] theorem State.setST_keys (s : State) (b : Byte) : (s.setST b).keys = s.keys := rfl
@[simp] theorem State.setST_status (s : State) (b : Byte) : (s.setST b).status = s.status := rfl
@[simp] theorem State.setST_stop (s : State) (b : Byte) : (s.setST b).stop = s.stop := rfl
@[simp] theorem State.setST_mem (s : State) (b : Byte) : (s.setST b).mem = s.mem := rfl
@[simp] theorem State.setST_strobes (s : State) (b : Byte) : (s.setST b).strobes = s.strobes := rfl
@[simp] theorem State.setST_params (s : State) (b : Byte) : (s.setST b).params = s.params := rfl
@[simp] theorem State.setST_schedule (s : State) (b : Byte) : (s.setST b).schedule = s.schedule := rfl
@[simp] theorem State.setST_draws (s : State) (b : Byte) : (s.setST b).draws = s.draws := rfl

/-! ### setPc -/

@[simp] theorem State.setPc_v (s : State) (w : Word) : (s.setPc w).v = s.v := rfl
@[simp] theorem State.setPc_i (s : State) (w : Word) : (s.setPc w).i = s.i := rfl
@[simp] theorem State.setPc_pc (s : State) (w : Word) : (s.setPc w).pc = w := rfl
@[simp] theorem State.setPc_stack (s : State) (w : Word) : (s.setPc w).stack = s.stack := rfl
@[simp] theorem State.setPc_dt (s : State) (w : Word) : (s.setPc w).dt = s.dt := rfl
@[simp] theorem State.setPc_st (s : State) (w : Word) : (s.setPc w).st = s.st := rfl
@[simp] theorem State.setPc_fb (s : State) (w : Word) : (s.setPc w).fb = s.fb := rfl
@[simp] theorem State.setPc_keys (s : State) (w : Word) : (s.setPc w).keys = s.keys := rfl
@[simp] theorem State.setPc_status (s : State) (w : Word) : (s.setPc w).status = s.status := rfl
@[simp] theorem State.setPc_stop (s : State) (w : Word) : (s.setPc w).stop = s.stop := rfl
@[simp] theorem State.setPc_mem (s : State) (w : Word) : (s.setPc w).mem = s.mem := rfl
@[simp] theorem State.setPc_strobes (s : State) (w : Word) : (s.setPc w).strobes = s.strobes := rfl
@[simp] theorem State.setPc_params (s : State) (w : Word) : (s.setPc w).params = s.params := rfl
@[simp] theorem State.setPc_schedule (s : State) (w : Word) : (s.setPc w).schedule = s.schedule := rfl
@[simp] theorem State.setPc_draws (s : State) (w : Word) : (s.setPc w).draws = s.draws := rfl

/-! ### skip -/

@[simp] theorem State.skip_v (s : State) : (s.skip).v = s.v := rfl
@[simp] theorem State.skip_i (s : State) : (s.skip).i = s.i := rfl
@[simp] theorem State.skip_pc (s : State) : (s.skip).pc = s.pc + 2 := rfl
@[simp] theorem State.skip_stack (s : State) : (s.skip).stack = s.stack := rfl
@[simp] theorem State.skip_dt (s : State) : (s.skip).dt = s.dt := rfl
@[simp] theorem State.skip_st (s : State) : (s.skip).st = s.st := rfl
@[simp] theorem State.skip_fb (s : State) : (s.skip).fb = s.fb := rfl
@[simp] theorem State.skip_keys (s : State) : (s.skip).keys = s.keys := rfl
@[simp] theorem State.skip_status (s : State) : (s.skip).status = s.status := rfl
@[simp] theorem State.skip_stop (s : State) : (s.skip).stop = s.stop := rfl
@[simp] theorem State.skip_mem (s : State) : (s.skip).mem = s.mem := rfl
@[simp] theorem State.skip_strobes (s : State) : (s.skip).strobes = s.strobes := rfl
@[simp] theorem State.skip_params (s : State) : (s.skip).params = s.params := rfl
@[simp] theorem State.skip_schedule (s : State) : (s.skip).schedule = s.schedule := rfl
@[simp] theorem State.skip_draws (s : State) : (s.skip).draws = s.draws := rfl

/-! ### push -/

@[simp] theorem State.push_v (s : State) (w : Word) : (s.push w).v = s.v := rfl
@[simp] theorem State.push_i (s : State) (w : Word) : (s.push w).i = s.i := rfl
@[simp] theorem State.push_pc (s : State) (w : Word) : (s.push w).pc = s.pc := rfl
@[simp] theorem State.push_stack (s : State) (w : Word) : (s.push w).stack = s.stack ++ [w] := rfl
@[simp] theorem State.push_dt (s : State) (w : Word) : (s.push w).dt = s.dt := rfl
@[simp] theorem State.push_st (s : State) (w : Word) : (s.push w).st = s.st := rfl
@[simp] theorem State.push_fb (s : State) (w : Word) : (s.push w).fb = s.fb := rfl
@[simp] theorem State.push_keys (s : State) (w : Word) : (s.push w).keys = s.keys := rfl
@[simp] theorem State.push_status (s : State) (w : Word) : (s.push w).status = s.status := rfl
@[simp] theorem State.push_stop (s : State) (w : Word) : (s.push w).stop = s.stop := rfl
@[simp] theorem State.push_mem (s : State) (w : Word) : (s.push w).mem = s.mem := rfl
@[simp] theorem State.push_strobes (s : State) (w : Word) : (s.push w).strobes = s.strobes := rfl
@[simp] theorem State.push_params (s : State) (w : Word) : (s.push w).params = s.params := rfl
@[simp] theorem State.push_schedule (s : State) (w : Word) : (s.push w).schedule = s.schedule := rfl
@[simp] theorem State.push_draws (s : State) (w : Word) : (s.push w).draws = s.draws := rfl

/-! ### haltAt -/

@[simp] theorem State.haltAt_v (s : State) (a : Word) (r : Fatal) : (s.haltAt a r).v = s.v := rfl
@[simp] theorem State.haltAt_i (s : State) (a : Word) (r : Fatal) : (s.haltAt a r).i = s.i := rfl
@[simp] theorem State.haltAt_pc (s : State) (a : Word) (r : Fatal) : (s.haltAt a r).pc = s.pc := rfl
@[simp] theorem State.haltAt_stack (s : State) (a : Word) (r : Fatal) : (s.haltAt a r).stack = s.stack := rfl
@[simp] theorem State.haltAt_dt (s : State) (a : Word) (r : Fatal) : (s.haltAt a r).dt = s.dt := rfl
@[simp] theorem State.haltAt_st (s : State) (a : Word) (r : Fatal) : (s.haltAt a r).st = s.st := rfl
@[simp] theorem State.haltAt_fb (s : State) (a : Word) (r : Fatal) : (s.haltAt a r).fb = s.fb := rfl
@[simp] theorem State.haltAt_keys (s : State) (a : Word) (r : Fatal) : (s.haltAt a r).keys = s.keys := rfl
@[simp] theorem State.haltAt_status (s : State) (a : Word) (r : Fatal) : (s.haltAt a r).status = .halted (.fatal r a) := rfl
@[simp] theorem State.haltAt_stop (s : State) (a : Word) (r : Fatal) : (s.haltAt a r).stop = s.stop := rfl
@[simp] theorem State.haltAt_mem (s : State) (a : Word) (r : Fatal) : (s.haltAt a r).mem = s.mem := rfl
@[simp] theorem State.haltAt_strobes (s : State) (a : Word) (r : Fatal) : (s.haltAt a r).strobes = s.strobes := rfl
@[simp] theorem State.haltAt_params (s : State) (a : Word) (r : Fatal) : (s.haltAt a r).params = s.params := rfl
@[simp] theorem State.haltAt_schedule (s : State) (a : Word) (r : Fatal) : (s.haltAt a r).schedule = s.schedule := rfl
@[simp] theorem State.haltAt_draws (s : State) (a : Word) (r : Fatal) : (s.haltAt a r).draws = s.draws := rfl

/-! ### strobe -/

@[simp] theorem State.strobe_v (s : State) : (s.strobe).v = s.v := rfl
@[simp] theorem State.strobe_i (s : State) : (s.strobe).i = s.i := rfl
@[simp] theorem State.strobe_pc (s : State) : (s.strobe).pc = s.pc := rfl
@[simp] theorem State.strobe_stack (s : State) : (s.strobe).stack = s.stack := rfl
@[simp] theorem State.strobe_dt (s : State) : (s.strobe).dt = s.dt := rfl
@[simp] theorem State.strobe_st (s : State) : (s.strobe).st = s.st := rfl
@[simp] theorem State.strobe_fb (s : State) : (s.strobe).fb = s.fb := rfl
@[simp] theorem State.strobe_keys (s : State) : (s.strobe).keys = s.keys := rfl
@[simp] theorem State.strobe_status (s : State) : (s.strobe).status = s.status := rfl
@[simp] theorem State.strobe_stop (s : State) : (s.strobe).stop = s.stop := rfl
@[simp] theorem State.strobe_mem (s : State) : (s.strobe).mem = s.mem := rfl
@[simp] theorem State.strobe_strobes (s : State) : (s.strobe).strobes = s.strobes + 1 := rfl
@[simp] theorem State.strobe_params (s : State) : (s.strobe).params = s.params := rfl
@[simp] theorem State.strobe_schedule (s : State) : (s.strobe).schedule = s.schedule := rfl
@[simp] theorem State.strobe_draws (s : State) : (s.strobe).draws = s.draws := rfl

/-! ### setRegFlag -/

@[simp] theorem State.setRegFlag_v (s : State) (x : Reg) (r f : Byte) : (s.setRegFlag x r f).v = (s.v.set x r).set flagReg f := rfl
@[simp] theorem State.setRegFlag_i (s : State) (x : Reg) (r f : Byte) : (s.setRegFlag x r f).i = s.i := rfl
@[simp] theorem State.setRegFlag_pc (s : State) (x : Reg) (r f : Byte) : (s.setRegFlag x r f).pc = s.pc := rfl
@[simp] theorem State.setRegFlag_stack (s : State) (x : Reg) (r f : Byte) : (s.setRegFlag x r f).stack = s.stack := rfl
@[simp] theorem State.setRegFlag_dt (s : State) (x : Reg) (r f : Byte) : (s.setRegFlag x r f).dt = s.dt := rfl
@[simp] theorem State.setRegFlag_st (s : State) (x : Reg) (r f : Byte) : (s.setRegFlag x r f).st = s.st := rfl
@[simp] theorem State.setRegFlag_fb (s : State) (x : Reg) (r f : Byte) : (s.setRegFlag x r f).fb = s.fb := rfl
@[simp] theorem State.setRegFlag_keys (s : State) (x : Reg) (r f : Byte) : (s.setRegFlag x r f).keys = s.keys := rfl
@[simp] theorem State.setRegFlag_status (s : State) (x : Reg) (r f : Byte) : (s.setRegFlag x r f).status = s.status := rfl
@[simp] theorem State.setRegFlag_stop (s : State) (x : Reg) (r f : Byte) : (s.setRegFlag x r f).stop = s.stop := rfl
@[simp] theorem State.setRegFlag_mem (s : State) (x : Reg) (r f : Byte) : (s.setRegFlag x r f).mem = s.mem := rfl
@[simp] theorem State.setRegFlag_strobes (s : State) (x : Reg) (r f : Byte) : (s.setRegFlag x r f).strobes = s.strobes := rfl
@[simp] theorem State.setRegFlag_params (s : State) (x : Reg) (r f : Byte) : (s.setRegFlag x r f).params = s.params := rfl
@[simp] theorem State.setRegFlag_schedule (s : State) (x : Reg) (r f : Byte) : (s.setRegFlag x r f).schedule = s.schedule := rfl
@[simp] theorem State.setRegFlag_draws (s : State) (x : Reg) (r f : Byte) : (s.setRegFlag x r f).draws = s.draws := rfl

/-! ### advance (the fetch advance, R60) -/

@[simp] theorem advance_v (s : State) : (advance s).v = s.v := rfl
@[simp] theorem advance_i (s : State) : (advance s).i = s.i := rfl
@[simp] theorem advance_pc (s : State) : (advance s).pc = s.pc + 2 := rfl
@[simp] theorem advance_stack (s : State) : (advance s).stack = s.stack := rfl
@[simp] theorem advance_dt (s : State) : (advance s).dt = s.dt := rfl
@[simp] theorem advance_st (s : State) : (advance s).st = s.st := rfl
@[simp] theorem advance_fb (s : State) : (advance s).fb = s.fb := rfl
@[simp] theorem advance_keys (s : State) : (advance s).keys = s.keys := rfl
@[simp] theorem advance_status (s : State) : (advance s).status = .running := rfl
@[simp] theorem advance_stop (s : State) : (advance s).stop = s.stop := rfl
@[simp] theorem advance_mem (s : State) : (advance s).mem = s.mem := rfl
@[simp] theorem advance_strobes (s : State) : (advance s).strobes = s.strobes := rfl
@[simp] theorem advance_params (s : State) : (advance s).params = s.params := rfl
@[simp] theorem advance_schedule (s : State) : (advance s).schedule = s.schedule := rfl
@[simp] theorem advance_draws (s : State) : (advance s).draws = s.draws := rfl

/-! ### skipIf -/

@[simp] theorem State.skipIf_v (s : State) (c : Bool) : (s.skipIf c).v = s.v := by cases c <;> rfl
@[simp] theorem State.skipIf_i (s : State) (c : Bool) : (s.skipIf c).i = s.i := by cases c <;> rfl
@[simp] theorem State.skipIf_pc (s : State) (c : Bool) : (s.skipIf c).pc = if c then s.pc + 2 else s.pc := by
  cases c <;> rfl
@[simp] theorem State.skipIf_stack (s : State) (c : Bool) : (s.skipIf c).stack = s.stack := by cases c <;> rfl
@[simp] theorem State.skipIf_dt (s : State) (c : Bool) : (s.skipIf c).dt = s.dt := by cases c <;> rfl
@[simp] theorem State.skipIf_st (s : State) (c : Bool) : (s.skipIf c).st = s.st := by cases c <;> rfl
@[simp] theorem State.skipIf_fb (s : State) (c : Bool) : (s.skipIf c).fb = s.fb := by cases c <;> rfl
@[simp] theorem State.skipIf_keys (s : State) (c : Bool) : (s.skipIf c).keys = s.keys := by cases c <;> rfl
@[simp] theorem State.skipIf_status (s : State) (c : Bool) : (s.skipIf c).status = s.status := by cases c <;> rfl
@[simp] theorem State.skipIf_stop (s : State) (c : Bool) : (s.skipIf c).stop = s.stop := by cases c <;> rfl
@[simp] theorem State.skipIf_mem (s : State) (c : Bool) : (s.skipIf c).mem = s.mem := by cases c <;> rfl
@[simp] theorem State.skipIf_strobes (s : State) (c : Bool) : (s.skipIf c).strobes = s.strobes := by cases c <;> rfl
@[simp] theorem State.skipIf_params (s : State) (c : Bool) : (s.skipIf c).params = s.params := by cases c <;> rfl
@[simp] theorem State.skipIf_schedule (s : State) (c : Bool) : (s.skipIf c).schedule = s.schedule := by cases c <;> rfl
@[simp] theorem State.skipIf_draws (s : State) (c : Bool) : (s.skipIf c).draws = s.draws := by cases c <;> rfl

/-! ### The agents' steps (R151, R153) -/

@[simp] theorem tickStep_v (s : State) : (tickStep s).v = s.v := rfl
@[simp] theorem tickStep_i (s : State) : (tickStep s).i = s.i := rfl
@[simp] theorem tickStep_pc (s : State) : (tickStep s).pc = s.pc := rfl
@[simp] theorem tickStep_stack (s : State) : (tickStep s).stack = s.stack := rfl
@[simp] theorem tickStep_dt (s : State) : (tickStep s).dt = tickDown s.dt := rfl
@[simp] theorem tickStep_st (s : State) : (tickStep s).st = tickDown s.st := rfl
@[simp] theorem tickStep_fb (s : State) : (tickStep s).fb = s.fb := rfl
@[simp] theorem tickStep_keys (s : State) : (tickStep s).keys = s.keys := rfl
@[simp] theorem tickStep_status (s : State) : (tickStep s).status = s.status := rfl
@[simp] theorem tickStep_stop (s : State) : (tickStep s).stop = s.stop := rfl
@[simp] theorem tickStep_mem (s : State) : (tickStep s).mem = s.mem := rfl
@[simp] theorem tickStep_strobes (s : State) : (tickStep s).strobes = s.strobes := rfl
@[simp] theorem tickStep_params (s : State) : (tickStep s).params = s.params := rfl
@[simp] theorem tickStep_schedule (s : State) : (tickStep s).schedule = s.schedule := rfl
@[simp] theorem tickStep_draws (s : State) : (tickStep s).draws = s.draws := rfl

@[simp] theorem stopStep_v (s : State) : (stopStep s).v = s.v := rfl
@[simp] theorem stopStep_i (s : State) : (stopStep s).i = s.i := rfl
@[simp] theorem stopStep_pc (s : State) : (stopStep s).pc = s.pc := rfl
@[simp] theorem stopStep_stack (s : State) : (stopStep s).stack = s.stack := rfl
@[simp] theorem stopStep_dt (s : State) : (stopStep s).dt = s.dt := rfl
@[simp] theorem stopStep_st (s : State) : (stopStep s).st = s.st := rfl
@[simp] theorem stopStep_fb (s : State) : (stopStep s).fb = s.fb := rfl
@[simp] theorem stopStep_keys (s : State) : (stopStep s).keys = s.keys := rfl
@[simp] theorem stopStep_status (s : State) : (stopStep s).status = .halted .quit := rfl
@[simp] theorem stopStep_stop (s : State) : (stopStep s).stop = true := rfl
@[simp] theorem stopStep_mem (s : State) : (stopStep s).mem = s.mem := rfl
@[simp] theorem stopStep_strobes (s : State) : (stopStep s).strobes = s.strobes := rfl
@[simp] theorem stopStep_params (s : State) : (stopStep s).params = s.params := rfl
@[simp] theorem stopStep_schedule (s : State) : (stopStep s).schedule = s.schedule := rfl
@[simp] theorem stopStep_draws (s : State) : (stopStep s).draws = s.draws := rfl

/-! ### One register after a write -/

/-- A register reads as the register file holds it. -/
theorem State.reg_eq (s : State) (x : Reg) : s.reg x = s.v[x.val] := rfl

/-- Equal register files read equal. -/
theorem State.reg_congr {s t : State} (h : t.v = s.v) (x : Reg) : t.reg x = s.reg x := by
  simp [State.reg, h]

/-- A written register holds the value written (R10: none is hardwired). -/
@[simp] theorem State.reg_setReg_same (s : State) (x : Reg) (b : Byte) : (s.setReg x b).reg x = b := by
  simp [State.reg, State.setReg]

/-- A write leaves every other register alone. -/
theorem State.reg_setReg_other (s : State) {x r : Reg} (b : Byte) (h : r ≠ x) : (s.setReg x b).reg r = s.reg r := by
  have : x.val ≠ r.val := fun e => h (Fin.ext e.symm)
  simp [State.reg, State.setReg, this]

/-- Reading one register after writing one. -/
theorem State.reg_setReg (s : State) (x r : Reg) (b : Byte) : (s.setReg x b).reg r = if r = x then b else s.reg r := by
  by_cases h : r = x
  · subst h; simp
  · simp [h, State.reg_setReg_other s b h]

/-- VF after a result and a flag is the flag, whichever register took the result (R11, R80). -/
@[simp] theorem State.reg_setRegFlag_flag (s : State) (x : Reg) (r f : Byte) : (s.setRegFlag x r f).reg flagReg = f := by
  simp [State.setRegFlag]

/-- The destination holds the result unless it is VF (R80). -/
theorem State.reg_setRegFlag_dest (s : State) {x : Reg} (r f : Byte) (h : x ≠ flagReg) : (s.setRegFlag x r f).reg x = r := by
  simp [State.setRegFlag, State.reg_setReg_other _ f h]

/-- Every register but the destination and VF is as before. -/
theorem State.reg_setRegFlag_other (s : State) {x q : Reg} (r f : Byte) (hx : q ≠ x) (hf : q ≠ flagReg) :
    (s.setRegFlag x r f).reg q = s.reg q := by
  simp [State.setRegFlag, State.reg_setReg_other _ f hf, State.reg_setReg_other _ r hx]

@[simp] theorem State.setI_reg (s : State) (w : Word) (q : Reg) : (s.setI w).reg q = s.reg q := rfl
@[simp] theorem State.setDT_reg (s : State) (b : Byte) (q : Reg) : (s.setDT b).reg q = s.reg q := rfl
@[simp] theorem State.setST_reg (s : State) (b : Byte) (q : Reg) : (s.setST b).reg q = s.reg q := rfl
@[simp] theorem State.setPc_reg (s : State) (w : Word) (q : Reg) : (s.setPc w).reg q = s.reg q := rfl
@[simp] theorem State.skip_reg (s : State) (q : Reg) : (s.skip).reg q = s.reg q := rfl
@[simp] theorem State.push_reg (s : State) (w : Word) (q : Reg) : (s.push w).reg q = s.reg q := rfl
@[simp] theorem State.haltAt_reg (s : State) (a : Word) (r : Fatal) (q : Reg) : (s.haltAt a r).reg q = s.reg q := rfl
@[simp] theorem State.strobe_reg (s : State) (q : Reg) : (s.strobe).reg q = s.reg q := rfl
@[simp] theorem State.skipIf_reg (s : State) (c : Bool) (q : Reg) : (s.skipIf c).reg q = s.reg q := by cases c <;> rfl
@[simp] theorem advance_reg (s : State) (q : Reg) : (advance s).reg q = s.reg q := rfl

end Sys2Proof.Machine
end

