-- ==== Sys2Proof/Laws/Ops.lean ====
section
/-! SUPPORT. One law per shared operation over registers, stack, operands, flags, keys and instruction words. -/

namespace Sys2Proof.Machine

/-! ### Consecutive registers (R104, R105) -/

@[simp] theorem State.setRegs_i (s : State) (k : Nat) (bs : List Byte) : (s.setRegs k bs).i = s.i := by
  induction bs generalizing s k with
  | nil => rfl
  | cons b bs ih => simp [State.setRegs, ih]

@[simp] theorem State.setRegs_pc (s : State) (k : Nat) (bs : List Byte) : (s.setRegs k bs).pc = s.pc := by
  induction bs generalizing s k with
  | nil => rfl
  | cons b bs ih => simp [State.setRegs, ih]

@[simp] theorem State.setRegs_stack (s : State) (k : Nat) (bs : List Byte) : (s.setRegs k bs).stack = s.stack := by
  induction bs generalizing s k with
  | nil => rfl
  | cons b bs ih => simp [State.setRegs, ih]

@[simp] theorem State.setRegs_dt (s : State) (k : Nat) (bs : List Byte) : (s.setRegs k bs).dt = s.dt := by
  induction bs generalizing s k with
  | nil => rfl
  | cons b bs ih => simp [State.setRegs, ih]

@[simp] theorem State.setRegs_st (s : State) (k : Nat) (bs : List Byte) : (s.setRegs k bs).st = s.st := by
  induction bs generalizing s k with
  | nil => rfl
  | cons b bs ih => simp [State.setRegs, ih]

@[simp] theorem State.setRegs_fb (s : State) (k : Nat) (bs : List Byte) : (s.setRegs k bs).fb = s.fb := by
  induction bs generalizing s k with
  | nil => rfl
  | cons b bs ih => simp [State.setRegs, ih]

@[simp] theorem State.setRegs_keys (s : State) (k : Nat) (bs : List Byte) : (s.setRegs k bs).keys = s.keys := by
  induction bs generalizing s k with
  | nil => rfl
  | cons b bs ih => simp [State.setRegs, ih]

@[simp] theorem State.setRegs_status (s : State) (k : Nat) (bs : List Byte) : (s.setRegs k bs).status = s.status := by
  induction bs generalizing s k with
  | nil => rfl
  | cons b bs ih => simp [State.setRegs, ih]

@[simp] theorem State.setRegs_stop (s : State) (k : Nat) (bs : List Byte) : (s.setRegs k bs).stop = s.stop := by
  induction bs generalizing s k with
  | nil => rfl
  | cons b bs ih => simp [State.setRegs, ih]

@[simp] theorem State.setRegs_mem (s : State) (k : Nat) (bs : List Byte) : (s.setRegs k bs).mem = s.mem := by
  induction bs generalizing s k with
  | nil => rfl
  | cons b bs ih => simp [State.setRegs, ih]

@[simp] theorem State.setRegs_strobes (s : State) (k : Nat) (bs : List Byte) : (s.setRegs k bs).strobes = s.strobes := by
  induction bs generalizing s k with
  | nil => rfl
  | cons b bs ih => simp [State.setRegs, ih]

@[simp] theorem State.setRegs_params (s : State) (k : Nat) (bs : List Byte) : (s.setRegs k bs).params = s.params := by
  induction bs generalizing s k with
  | nil => rfl
  | cons b bs ih => simp [State.setRegs, ih]

@[simp] theorem State.setRegs_schedule (s : State) (k : Nat) (bs : List Byte) : (s.setRegs k bs).schedule = s.schedule := by
  induction bs generalizing s k with
  | nil => rfl
  | cons b bs ih => simp [State.setRegs, ih]

@[simp] theorem State.setRegs_draws (s : State) (k : Nat) (bs : List Byte) : (s.setRegs k bs).draws = s.draws := by
  induction bs generalizing s k with
  | nil => rfl
  | cons b bs ih => simp [State.setRegs, ih]

/-- Registers outside the written run are as before. -/
theorem State.reg_setRegs_outside (s : State) (k : Nat) (bs : List Byte) (r : Reg) (hk : k + bs.length ≤ 16)
    (h : r.val < k ∨ k + bs.length ≤ r.val) : (s.setRegs k bs).reg r = s.reg r := by
  induction bs generalizing s k with
  | nil => rfl
  | cons b bs ih =>
    simp only [List.length_cons] at hk h
    rw [State.setRegs, ih _ (k + 1) (by omega) (by omega)]
    refine State.reg_setReg_other s b fun e => ?_
    have : r.val = k % 16 := congrArg Fin.val e
    omega

/-- The j-th byte of the run lands in register `k + j`. -/
theorem State.reg_setRegs_inside (s : State) (k : Nat) (bs : List Byte) (r : Reg) (hk : k + bs.length ≤ 16) (j : Nat)
    (hj : j < bs.length) (hr : r.val = k + j) : (s.setRegs k bs).reg r = bs[j] := by
  induction bs generalizing s k j with
  | nil => simp at hj
  | cons b bs ih =>
    simp only [List.length_cons] at hk hj
    cases j with
    | zero =>
      have e : r = Fin.ofNat 16 k := Fin.ext (by simp [Fin.ofNat]; omega)
      rw [State.setRegs, State.reg_setRegs_outside _ (k + 1) bs r (by omega) (by omega), e]
      simp
    | succ j => simpa [State.setRegs] using ih (s.setReg (Fin.ofNat 16 k) b) (k + 1) (by omega) j (by omega) (by omega)

@[simp] theorem State.length_regsUpTo (s : State) (x : Reg) : (s.regsUpTo x).length = x.val + 1 := by
  have := x.isLt
  simp only [State.regsUpTo, List.length_take, Vector.length_toList]
  omega

/-- The k-th dumped byte is V[k]. -/
theorem State.getElem_regsUpTo (s : State) (x : Reg) (k : Nat) (h : k < (s.regsUpTo x).length) :
    (s.regsUpTo x)[k] = s.reg ⟨k, by have := x.isLt; simp at h; omega⟩ := by
  simp [State.regsUpTo, State.reg]

/-! ### The call stack (R14) -/

/-- `Pop()` fails exactly on the empty stack. -/
@[simp] theorem State.pop_eq_none (s : State) : s.pop = none ↔ s.stack = [] := by
  unfold State.pop
  split
  · next h => simpa using h
  · next h => simpa using fun e => by simp [e] at h

/-- `Pop()` takes the most recent entry off. -/
theorem State.pop_concat (s : State) {l : List Word} {w : Word} (h : s.stack = l ++ [w]) :
    s.pop = some (w, { s with stack := l }) := by
  simp [State.pop, h]

/-- What `Pop()` can answer. -/
theorem State.pop_eq_some (s t : State) (w : Word) (h : s.pop = some (w, t)) :
    s.stack = t.stack ++ [w] ∧ t = { s with stack := t.stack } := by
  rcases List.eq_nil_or_concat s.stack with h0 | ⟨l, b, h0⟩
  · simp [State.pop, h0] at h
  · rw [List.concat_eq_append] at h0
    rw [State.pop_concat s h0] at h
    injection h with h
    injection h with h1 h2
    subst h1 h2
    exact ⟨h0, rfl⟩

/-! ### Operands and flags -/

/-- A value names a key iff it is at most 15, and then the key of that number (R125). -/
theorem keyIndex_eq_some (b : Byte) (k : Key) : keyIndex b = some k ↔ b.toNat = k.val := by
  unfold keyIndex
  split
  · simp only [Option.some.injEq, Fin.ext_iff]
  · have := k.isLt
    simp; omega

theorem keyIndex_eq_none (b : Byte) : keyIndex b = none ↔ 15 < b.toNat := by
  unfold keyIndex
  split <;> simp <;> omega

@[simp] theorem flagOf_true : flagOf true = 1 := rfl
@[simp] theorem flagOf_false : flagOf false = 0 := rfl

theorem tickDown_toNat (b : Byte) : (tickDown b).toNat = b.toNat - 1 := by
  unfold tickDown
  split
  · next h => simp [h]
  · next h =>
    have h0 : b.toNat ≠ 0 := fun e => h (BitVec.eq_of_toNat_eq (by simpa using e))
    have := b.isLt
    rw [BitVec.toNat_sub]
    simp
    omega

@[simp] theorem length_bcdDigits (b : Byte) : (bcdDigits b).length = 3 := rfl

/-! ### Sets of keys (R131, R152) -/

/-- The union holds the new key and the old ones. -/
theorem mem_insertKey (k q : Key) (ks : List Key) : q ∈ insertKey k ks ↔ q = k ∨ q ∈ ks := by
  induction ks with
  | nil => simp [insertKey]
  | cons a ks ih =>
    unfold insertKey
    split
    · simp
    · split
      · next h => subst h; simp
      · simp only [List.mem_cons, ih]
        constructor
        · rintro (h | h | h) <;> simp [h]
        · rintro (h | h | h) <;> simp [h]

/-- The resuming key is an element of P. -/
theorem chooseKey_mem (c : Nat) (ks : List Key) (k : Key) (h : chooseKey c ks = some k) : k ∈ ks := by
  match ks, h with
  | [q], h => simp [chooseKey] at h; simp [h]
  | a :: b :: ks, h => exact List.mem_of_getElem? h

/-- A key-wait with a key in P has a resume step. -/
theorem chooseKey_isSome (c : Nat) (ks : List Key) (h : ks ≠ []) : ∃ k, chooseKey c ks = some k := by
  match ks, h with
  | [q], _ => exact ⟨q, rfl⟩
  | a :: b :: ks, _ =>
    have hlt : c % (ks.length + 2) < (a :: b :: ks).length := Nat.mod_lt c (Nat.succ_pos _)
    exact ⟨_, List.getElem?_eq_getElem hlt⟩

/-! ### Fields of assembled words (R46) -/

theorem opField_wordNnn (op : Nat) (h : op < 16) (nnn : Addr12) : opField (wordNnn op nnn) = op := by
  have := nnn.isLt
  simp only [opField, bits, wordNnn, BitVec.toNat_ofNat]
  omega

theorem opField_wordXnn (op : Nat) (h : op < 16) (x : Reg) (nn : Byte) : opField (wordXnn op x nn) = op := by
  have := nn.isLt
  have := x.isLt
  simp only [opField, bits, wordXnn, BitVec.toNat_ofNat]
  omega

theorem opField_wordXyn (op : Nat) (h : op < 16) (x y : Reg) (n : Fin 16) : opField (wordXyn op x y n) = op := by
  have := x.isLt
  have := y.isLt
  have := n.isLt
  simp only [opField, bits, wordXyn, BitVec.toNat_ofNat]
  omega

@[simp] theorem nnnField_wordNnn (op : Nat) (nnn : Addr12) : nnnField (wordNnn op nnn) = nnn := by
  apply BitVec.eq_of_toNat_eq
  have := nnn.isLt
  simp only [nnnField, bits, wordNnn, BitVec.toNat_ofNat]
  omega

@[simp] theorem xField_wordXnn (op : Nat) (x : Reg) (nn : Byte) : xField (wordXnn op x nn) = x := by
  apply Fin.ext
  have := nn.isLt
  have := x.isLt
  simp only [xField, bits, wordXnn, BitVec.toNat_ofNat, Fin.ofNat]
  omega

@[simp] theorem nnField_wordXnn (op : Nat) (x : Reg) (nn : Byte) : nnField (wordXnn op x nn) = nn := by
  apply BitVec.eq_of_toNat_eq
  have := nn.isLt
  simp only [nnField, bits, wordXnn, BitVec.toNat_ofNat]
  omega

@[simp] theorem xField_wordXyn (op : Nat) (x y : Reg) (n : Fin 16) : xField (wordXyn op x y n) = x := by
  apply Fin.ext
  have := x.isLt
  have := y.isLt
  have := n.isLt
  simp only [xField, bits, wordXyn, BitVec.toNat_ofNat, Fin.ofNat]
  omega

@[simp] theorem yField_wordXyn (op : Nat) (x y : Reg) (n : Fin 16) : yField (wordXyn op x y n) = y := by
  apply Fin.ext
  have := x.isLt
  have := y.isLt
  have := n.isLt
  simp only [yField, bits, wordXyn, BitVec.toNat_ofNat, Fin.ofNat]
  omega

@[simp] theorem nField_wordXyn (op : Nat) (x y : Reg) (n : Fin 16) : nField (wordXyn op x y n) = n := by
  apply Fin.ext
  have := x.isLt
  have := y.isLt
  have := n.isLt
  simp only [nField, bits, wordXyn, BitVec.toNat_ofNat, Fin.ofNat]
  omega

/-! ### A word and its fields (R46) -/

theorem opField_lt (w : Word) : opField w < 16 := Nat.mod_lt _ (by decide)

/-- A word is `op x y n`, one hex digit each. -/
theorem word_eq_digits (w : Word) :
    w.toNat = opField w * 4096 + (xField w).val * 256 + (yField w).val * 16 + (nField w).val := by
  have := w.isLt
  simp only [opField, xField, yField, nField, bits, Fin.ofNat]
  omega

/-- `nn` is `y n`. -/
theorem nnField_eq_digits (w : Word) : (nnField w).toNat = (yField w).val * 16 + (nField w).val := by
  have := w.isLt
  simp only [nnField, yField, nField, bits, Fin.ofNat, BitVec.toNat_ofNat]
  omega

/-- `nnn` is `x y n`. -/
theorem nnnField_eq_digits (w : Word) :
    (nnnField w).toNat = (xField w).val * 256 + (yField w).val * 16 + (nField w).val := by
  have := w.isLt
  simp only [nnnField, xField, yField, nField, bits, Fin.ofNat, BitVec.toNat_ofNat]
  omega

end Sys2Proof.Machine
end

