-- ==== Sys2Proof/Laws/Frames.lean ====
section
/-! SUPPORT. The frames of the updates, in the terms of Safety.lean: what each leaves unchanged. -/

namespace Sys2Proof.Machine

theorem KeepsBut.refl (P : Part → Prop) (s : State) : KeepsBut P s s := by
  intro p _
  cases p <;> rfl

theorem Part.Same.trans {p : Part} {s t u : State} (h1 : p.Same s t) (h2 : p.Same t u) : p.Same s u := by
  cases p <;> exact Eq.trans h2 h1

theorem KeepsBut.trans {P : Part → Prop} {s t u : State} (h1 : KeepsBut P s t) (h2 : KeepsBut P t u) : KeepsBut P s u :=
  fun p hp => (h1 p hp).trans (h2 p hp)

theorem KeepsBut.mono {P Q : Part → Prop} {s t : State} (h : KeepsBut P s t) (hPQ : ∀ p, P p → Q p) : KeepsBut Q s t :=
  fun p hp => h p fun hP => hp (hPQ p hP)

theorem keepsBut_setReg (s : State) (x : Reg) (b : Byte) : KeepsBut (fun p => p = .reg x) s (s.setReg x b) := by
  intro p hp
  cases p with
  | reg q => exact State.reg_setReg_other s b (by simpa using hp)
  | _ => simp_all [Part.Same, State.keyDown]

theorem keepsBut_setRegFlag (s : State) (x : Reg) (r f : Byte) :
    KeepsBut (fun p => p = .reg x ∨ p = .reg flagReg) s (s.setRegFlag x r f) :=
  ((keepsBut_setReg s x r).mono fun _ => .inl).trans ((keepsBut_setReg _ flagReg f).mono fun _ => .inr)

theorem keepsBut_setPc (s : State) (w : Word) : KeepsBut (fun p => p = .pc) s (s.setPc w) := by
  intro p hp
  cases p <;> simp_all [Part.Same, State.keyDown]

theorem keepsBut_skipIf (s : State) (c : Bool) : KeepsBut (fun p => p = .pc) s (s.skipIf c) := by
  intro p hp
  cases p <;> simp_all [Part.Same, State.keyDown]

theorem keepsBut_setI (s : State) (w : Word) : KeepsBut (fun p => p = .index) s (s.setI w) := by
  intro p hp
  cases p <;> simp_all [Part.Same, State.keyDown]

theorem keepsBut_setDT (s : State) (b : Byte) : KeepsBut (fun p => p = .dt) s (s.setDT b) := by
  intro p hp
  cases p <;> simp_all [Part.Same, State.keyDown]

theorem keepsBut_setST (s : State) (b : Byte) : KeepsBut (fun p => p = .st) s (s.setST b) := by
  intro p hp
  cases p <;> simp_all [Part.Same, State.keyDown]

theorem keepsBut_haltAt (s : State) (a : Word) (r : Fatal) : KeepsBut (fun p => p = .status) s (s.haltAt a r) := by
  intro p hp
  cases p <;> simp_all [Part.Same, State.keyDown]

/-- Writing a list of bytes keeps everything but those bytes. -/
theorem keepsBut_writeList (s : State) (a : Nat) (xs : List Byte) :
    KeepsBut (fun p => ∃ k, k < xs.length ∧ p = .byte (a + k)) s { s with mem := s.mem.writeList a xs } := by
  intro p hp
  cases p with
  | byte b =>
    refine Memory.read_writeList_outside _ _ _ ?_
    apply Classical.byContradiction
    intro h
    exact hp ⟨b - a, by omega, by simp; omega⟩
  | _ => rfl

end Sys2Proof.Machine
end

