-- ==== Sys2Proof/Laws/PerInstr.lean ====
section
/-! SUPPORT. A law made per instruction: the word of an instruction has the fixed fields of its row in opcode_table.json. -/

namespace Sys2Proof.Laws.FixedFields

/-- The fixed fields of an instruction's row in opcode_table.json, as (hi, lo, value). -/
def row : Instr → List (Nat × Nat × Nat)
  | .sys _ => [(15, 12, 0x0)]
  | .cls => [(15, 0, 0xE0)]
  | .ret => [(15, 0, 0xEE)]
  | .jp _ => [(15, 12, 0x1)]
  | .call _ => [(15, 12, 0x2)]
  | .seImm _ _ => [(15, 12, 0x3)]
  | .sneImm _ _ => [(15, 12, 0x4)]
  | .seReg _ _ => [(15, 12, 0x5)]
  | .ldImm _ _ => [(15, 12, 0x6)]
  | .addImm _ _ => [(15, 12, 0x7)]
  | .ldReg _ _ => [(3, 0, 0x0), (15, 12, 0x8)]
  | .orReg _ _ => [(3, 0, 0x1), (15, 12, 0x8)]
  | .andReg _ _ => [(3, 0, 0x2), (15, 12, 0x8)]
  | .xorReg _ _ => [(3, 0, 0x3), (15, 12, 0x8)]
  | .addReg _ _ => [(3, 0, 0x4), (15, 12, 0x8)]
  | .subReg _ _ => [(3, 0, 0x5), (15, 12, 0x8)]
  | .shr _ _ => [(3, 0, 0x6), (15, 12, 0x8)]
  | .subn _ _ => [(3, 0, 0x7), (15, 12, 0x8)]
  | .shl _ _ => [(3, 0, 0xE), (15, 12, 0x8)]
  | .sneReg _ _ => [(15, 12, 0x9)]
  | .ldI _ => [(15, 12, 0xA)]
  | .jpV0 _ => [(15, 12, 0xB)]
  | .rnd _ _ => [(15, 12, 0xC)]
  | .drw _ _ _ => [(15, 12, 0xD)]
  | .skp _ => [(7, 0, 0x9E), (15, 12, 0xE)]
  | .sknp _ => [(7, 0, 0xA1), (15, 12, 0xE)]
  | .ldVxDT _ => [(7, 0, 0x7), (15, 12, 0xF)]
  | .ldVxK _ => [(7, 0, 0xA), (15, 12, 0xF)]
  | .ldDTVx _ => [(7, 0, 0x15), (15, 12, 0xF)]
  | .ldSTVx _ => [(7, 0, 0x18), (15, 12, 0xF)]
  | .addI _ => [(7, 0, 0x1E), (15, 12, 0xF)]
  | .ldF _ => [(7, 0, 0x29), (15, 12, 0xF)]
  | .ldB _ => [(7, 0, 0x33), (15, 12, 0xF)]
  | .storeRegs _ => [(7, 0, 0x55), (15, 12, 0xF)]
  | .loadRegs _ => [(7, 0, 0x65), (15, 12, 0xF)]

/-- The word of the instruction has its row's fixed fields. -/
def Statement (i : Instr) : Prop := ∀ f ∈ row i, bits (encode i) f.1 f.2.1 = f.2.2

theorem ofNnn (op : Nat) (h : op < 16) (nnn : Addr12) : bits (wordNnn op nnn) 15 12 = op := by
  have := nnn.isLt
  simp only [bits, wordNnn, BitVec.toNat_ofNat]
  omega

theorem ofXnn (op : Nat) (h : op < 16) (x : Reg) (nn : Byte) :
    bits (wordXnn op x nn) 15 12 = op ∧ bits (wordXnn op x nn) 7 0 = nn.toNat := by
  have := x.isLt
  have := nn.isLt
  simp only [bits, wordXnn, BitVec.toNat_ofNat]
  omega

theorem ofXyn (op : Nat) (h : op < 16) (x y : Reg) (n : Fin 16) :
    bits (wordXyn op x y n) 15 12 = op ∧ bits (wordXyn op x y n) 3 0 = n.val := by
  have := x.isLt
  have := y.isLt
  have := n.isLt
  simp only [bits, wordXyn, BitVec.toNat_ofNat]
  omega

theorem one {i : Instr} {f : Nat × Nat × Nat} (hr : row i = [f]) (h : bits (encode i) f.1 f.2.1 = f.2.2) : Statement i := by
  intro g hg
  rw [hr] at hg
  cases List.mem_singleton.1 hg
  exact h

theorem two {i : Instr} {f g : Nat × Nat × Nat} (hr : row i = [f, g]) (hf : bits (encode i) f.1 f.2.1 = f.2.2)
    (hg : bits (encode i) g.1 g.2.1 = g.2.2) : Statement i := by
  intro e he
  rw [hr] at he
  rcases List.mem_cons.1 he with h | h
  · cases h; exact hf
  · cases List.mem_singleton.1 h; exact hg

theorem sys (nnn : Addr12) : Statement (.sys nnn) :=
  one rfl (ofNnn 0x0 (by decide) nnn)

theorem cls : Statement (.cls) :=
  one rfl (by decide)

theorem ret : Statement (.ret) :=
  one rfl (by decide)

theorem jp (nnn : Addr12) : Statement (.jp nnn) :=
  one rfl (ofNnn 0x1 (by decide) nnn)

theorem call (nnn : Addr12) : Statement (.call nnn) :=
  one rfl (ofNnn 0x2 (by decide) nnn)

theorem seImm (x : Reg) (nn : Byte) : Statement (.seImm x nn) :=
  one rfl (ofXnn 0x3 (by decide) x nn).1

theorem sneImm (x : Reg) (nn : Byte) : Statement (.sneImm x nn) :=
  one rfl (ofXnn 0x4 (by decide) x nn).1

theorem seReg (x y : Reg) : Statement (.seReg x y) :=
  one rfl (ofXyn 0x5 (by decide) x y 0).1

theorem ldImm (x : Reg) (nn : Byte) : Statement (.ldImm x nn) :=
  one rfl (ofXnn 0x6 (by decide) x nn).1

theorem addImm (x : Reg) (nn : Byte) : Statement (.addImm x nn) :=
  one rfl (ofXnn 0x7 (by decide) x nn).1

theorem ldReg (x y : Reg) : Statement (.ldReg x y) :=
  two rfl (ofXyn 0x8 (by decide) x y 0x0).2 (ofXyn 0x8 (by decide) x y 0x0).1

theorem orReg (x y : Reg) : Statement (.orReg x y) :=
  two rfl (ofXyn 0x8 (by decide) x y 0x1).2 (ofXyn 0x8 (by decide) x y 0x1).1

theorem andReg (x y : Reg) : Statement (.andReg x y) :=
  two rfl (ofXyn 0x8 (by decide) x y 0x2).2 (ofXyn 0x8 (by decide) x y 0x2).1

theorem xorReg (x y : Reg) : Statement (.xorReg x y) :=
  two rfl (ofXyn 0x8 (by decide) x y 0x3).2 (ofXyn 0x8 (by decide) x y 0x3).1

theorem addReg (x y : Reg) : Statement (.addReg x y) :=
  two rfl (ofXyn 0x8 (by decide) x y 0x4).2 (ofXyn 0x8 (by decide) x y 0x4).1

theorem subReg (x y : Reg) : Statement (.subReg x y) :=
  two rfl (ofXyn 0x8 (by decide) x y 0x5).2 (ofXyn 0x8 (by decide) x y 0x5).1

theorem shr (x y : Reg) : Statement (.shr x y) :=
  two rfl (ofXyn 0x8 (by decide) x y 0x6).2 (ofXyn 0x8 (by decide) x y 0x6).1

theorem subn (x y : Reg) : Statement (.subn x y) :=
  two rfl (ofXyn 0x8 (by decide) x y 0x7).2 (ofXyn 0x8 (by decide) x y 0x7).1

theorem shl (x y : Reg) : Statement (.shl x y) :=
  two rfl (ofXyn 0x8 (by decide) x y 0xE).2 (ofXyn 0x8 (by decide) x y 0xE).1

theorem sneReg (x y : Reg) : Statement (.sneReg x y) :=
  one rfl (ofXyn 0x9 (by decide) x y 0).1

theorem ldI (nnn : Addr12) : Statement (.ldI nnn) :=
  one rfl (ofNnn 0xA (by decide) nnn)

theorem jpV0 (nnn : Addr12) : Statement (.jpV0 nnn) :=
  one rfl (ofNnn 0xB (by decide) nnn)

theorem rnd (x : Reg) (nn : Byte) : Statement (.rnd x nn) :=
  one rfl (ofXnn 0xC (by decide) x nn).1

theorem drw (x y : Reg) (n : Fin 16) : Statement (.drw x y n) :=
  one rfl (ofXyn 0xD (by decide) x y n).1

theorem skp (x : Reg) : Statement (.skp x) :=
  two rfl (ofXnn 0xE (by decide) x 0x9E).2 (ofXnn 0xE (by decide) x 0x9E).1

theorem sknp (x : Reg) : Statement (.sknp x) :=
  two rfl (ofXnn 0xE (by decide) x 0xA1).2 (ofXnn 0xE (by decide) x 0xA1).1

theorem ldVxDT (x : Reg) : Statement (.ldVxDT x) :=
  two rfl (ofXnn 0xF (by decide) x 0x07).2 (ofXnn 0xF (by decide) x 0x07).1

theorem ldVxK (x : Reg) : Statement (.ldVxK x) :=
  two rfl (ofXnn 0xF (by decide) x 0x0A).2 (ofXnn 0xF (by decide) x 0x0A).1

theorem ldDTVx (x : Reg) : Statement (.ldDTVx x) :=
  two rfl (ofXnn 0xF (by decide) x 0x15).2 (ofXnn 0xF (by decide) x 0x15).1

theorem ldSTVx (x : Reg) : Statement (.ldSTVx x) :=
  two rfl (ofXnn 0xF (by decide) x 0x18).2 (ofXnn 0xF (by decide) x 0x18).1

theorem addI (x : Reg) : Statement (.addI x) :=
  two rfl (ofXnn 0xF (by decide) x 0x1E).2 (ofXnn 0xF (by decide) x 0x1E).1

theorem ldF (x : Reg) : Statement (.ldF x) :=
  two rfl (ofXnn 0xF (by decide) x 0x29).2 (ofXnn 0xF (by decide) x 0x29).1

theorem ldB (x : Reg) : Statement (.ldB x) :=
  two rfl (ofXnn 0xF (by decide) x 0x33).2 (ofXnn 0xF (by decide) x 0x33).1

theorem storeRegs (x : Reg) : Statement (.storeRegs x) :=
  two rfl (ofXnn 0xF (by decide) x 0x55).2 (ofXnn 0xF (by decide) x 0x55).1

theorem loadRegs (x : Reg) : Statement (.loadRegs x) :=
  two rfl (ofXnn 0xF (by decide) x 0x65).2 (ofXnn 0xF (by decide) x 0x65).1

end Sys2Proof.Laws.FixedFields
end

