-- ==== Sys2Proof/Laws/Step.lean ====
section
/-! SUPPORT. What an instruction and what a step can do, said once. -/

namespace Sys2Proof.Machine

/-- The two ways an instruction can end: it raises a fatal condition, and then nothing but the status changes; or it has its effect,
which touches no parameter, no key, not the stop signal and not the turns, sets no other status than an entered key-wait, writes
memory only as a run of bytes, and changes the stack by one entry at most. -/
theorem exec_outcomes (i : Instr) (s t : State) (h : exec i s = .next t) :
    (∃ r, t = s.haltAt s.instrAddr r) ∨
      (t.params = s.params ∧ t.keys = s.keys ∧ t.stop = s.stop ∧ t.schedule = s.schedule ∧
        (t.status = s.status ∨ ∃ x, t.status = .waiting x []) ∧
        (t.mem = s.mem ∨ ∃ a xs, t.mem = s.mem.writeList a xs) ∧
        (t.stack = s.stack ∨ t.stack = s.stack.dropLast ∨
          (t.stack = s.stack ++ [s.pc] ∧ s.params.stackCapacity ≠ some s.sp))) := by
  cases i <;> simp only [exec] at h
  case ret =>
    unfold execRet at h
    split at h
    · cases h; exact .inl ⟨_, rfl⟩
    · next hp =>
      obtain ⟨h1, h2⟩ := State.pop_eq_some _ _ _ hp
      cases h
      right
      rw [h2]
      simp [State.setPc, h1]
  case call =>
    unfold execCall at h
    split at h
    · cases h; exact .inl ⟨_, rfl⟩
    · next hp => cases h; right; simp [hp]
  case drw =>
    unfold execDrw at h
    split at h
    · cases h; exact .inl ⟨_, rfl⟩
    split at h
    · cases h; exact .inl ⟨_, rfl⟩
    · cases h; right; simp
  case ldB =>
    unfold execLdB at h
    split at h
    · cases h; exact .inl ⟨_, rfl⟩
    · cases h; exact .inr ⟨rfl, rfl, rfl, rfl, .inl rfl, .inr ⟨_, _, rfl⟩, .inl rfl⟩
  case storeRegs =>
    unfold execStoreRegs at h
    split at h
    · cases h; exact .inl ⟨_, rfl⟩
    · cases h; exact .inr ⟨rfl, rfl, rfl, rfl, .inl rfl, .inr ⟨_, _, rfl⟩, .inl rfl⟩
  case loadRegs =>
    unfold execLoadRegs at h
    split at h
    · cases h; exact .inl ⟨_, rfl⟩
    · cases h; right; simp
  case skp =>
    unfold execSkp at h
    split at h
    · cases h; exact .inl ⟨_, rfl⟩
    · cases h; right; simp
  case sknp =>
    unfold execSknp at h
    split at h
    · cases h; exact .inl ⟨_, rfl⟩
    · cases h; right; simp
  all_goals (cases h; right; simp)

/-- A state whose status is Loaded or Running is live. -/
theorem State.live_of_fetching {s : State} (h : s.fetching = true) : s.live = true := by
  unfold State.fetching State.live at *
  split <;> simp_all

/-- In Loaded and Running the interpreter's turn is a fetch step (R60). -/
theorem interpreterStep_of_fetching {s : State} (h : s.fetching = true) : interpreterStep s = fetchStep s := by
  unfold interpreterStep State.fetching at *
  split <;> simp_all

/-- The interpreter's turn. -/
theorem step_of_interpreterNext {s : State} {rest : List Turn} (h : InterpreterNext s rest) (hl : s.live = true) :
    step s = interpreterStep { s with schedule := rest } := by
  unfold step State.live at *
  rcases h with ⟨h1, h2⟩ | h1
  · subst h2
    have e : { s with schedule := [] } = s := by rw [← h1]
    rw [e]
    split <;> simp_all
  · split <;> simp_all

/-- The timer agent's turn. -/
theorem step_of_tick {s : State} {rest : List Turn} (hl : s.live = true) (h : s.schedule = .tick :: rest) :
    step s = .next (tickStep { s with schedule := rest }) := by
  unfold step State.live at *
  split <;> simp_all

/-- The input agent's turn. -/
theorem step_of_keyEvent {s : State} {k : Key} {e : KeyEdge} {rest : List Turn} (hl : s.live = true)
    (h : s.schedule = .keyEvent k e :: rest) : step s = .next (keyStep k e { s with schedule := rest }) := by
  unfold step State.live at *
  split <;> simp_all

/-- The stop turn. -/
theorem step_of_stop {s : State} {rest : List Turn} (hl : s.live = true) (h : s.schedule = .stop :: rest) :
    step s = .next (stopStep { s with schedule := rest }) := by
  unfold step State.live at *
  split <;> simp_all

/-- Everything a step that answers a next state can be: the state is live, and the turn taken is the interpreter's, a tick, a key
event or the stop. -/
theorem step_cases {s t : State} (h : step s = .next t) :
    s.live = true ∧ ∃ rest,
      (InterpreterNext s rest ∧ interpreterStep { s with schedule := rest } = .next t) ∨
      t = tickStep { s with schedule := rest } ∨
      (∃ k e, t = keyStep k e { s with schedule := rest }) ∨
      t = stopStep { s with schedule := rest } := by
  have hl : s.live = true := by
    unfold State.live
    split
    · next hh => simp [step, hh] at h
    · rfl
  refine ⟨hl, ?_⟩
  match hs : s.schedule with
  | [] =>
    have hn : InterpreterNext s [] := .inl ⟨hs, rfl⟩
    exact ⟨[], .inl ⟨hn, by rw [← step_of_interpreterNext hn hl, h]⟩⟩
  | .interpreter :: rest =>
    have hn : InterpreterNext s rest := .inr hs
    exact ⟨rest, .inl ⟨hn, by rw [← step_of_interpreterNext hn hl, h]⟩⟩
  | .tick :: rest =>
    rw [step_of_tick hl hs] at h
    injection h with h
    exact ⟨rest, .inr (.inl h.symm)⟩
  | .keyEvent k e :: rest =>
    rw [step_of_keyEvent hl hs] at h
    injection h with h
    exact ⟨rest, .inr (.inr (.inl ⟨k, e, h.symm⟩))⟩
  | .stop :: rest =>
    rw [step_of_stop hl hs] at h
    injection h with h
    exact ⟨rest, .inr (.inr (.inr h.symm))⟩

end Sys2Proof.Machine
end

