-- ==== Sys2Proof/Tests/Slice0.lean ====
section
/-! SUPPORT. The model's own tests. Words are written out from 30_encoding.md R57 and opcode_table.json; expected results are the
vectors of spec/95_test_vectors.md, named in each docstring (E worked examples of the source, T, A, M, G, K, Z derived from the
rules). The `witness_` theorems show states and operands that meet the hypotheses of the obligation they are named after. -/

namespace Sys2Proof.Tests

open Sys2Proof Sys2Proof.Machine

/-- The parameters of R2 with I unchanged by dumps and loads and the scan code of key k being 0x30 + k. -/
def params : Params where
  stackCapacity := none
  shiftSource := .vy
  loadStoreIncI := false
  keyWaitValue := .logicalIndex
  scanCode := Vector.ofFn fun k => 0x30 + BitVec.ofNat 8 k.val
  drawCoord := .wrap

/-- The reset state with these parameters. -/
def start : State := { State.reset with params := params, status := .running }

/-- `start` with register values. -/
def withRegs (vs : List (Reg × Byte)) : State := vs.foldl (fun s p => s.setReg p.1 p.2) start

/-- The state with bytes stored from an address on. -/
def store (a : Nat) (bs : List Byte) (s : State) : State := { s with mem := s.mem.writeList a bs }

/-- What `f` reads in the state one step after the word `w` is placed where the step fetches. -/
def after {α : Type} (w : Nat) (f : State → α) (s : State) : Option α :=
  match step (s.withFetchWord 16 w) with
  | .next t => some (f t)
  | .fault _ => none
  | .refused _ => none

/-- What `f` reads in the state after an instruction. -/
def afterExec {α : Type} (i : Instr) (f : State → α) (s : State) : Option α :=
  match exec i s with
  | .next t => some (f t)
  | .fault _ => none
  | .refused _ => none

/-- What `f` reads in the state after a number of steps. -/
def afterSteps {α : Type} (n : Nat) (f : State → α) (s : State) : Option α :=
  match Host.Core.run Sys2Proof.core n s with
  | .next t => some (f t)
  | .fault _ => none
  | .refused _ => none

/-- The pixels that are set, as (row, column). -/
def lit (s : State) : List (Nat × Nat) :=
  (List.finRange 32).flatMap fun r => ((List.finRange 64).filter fun c => pixel s.fb r c).map fun c => (r.val, c.val)

/-! ### WellFormed: an ill-formed term is refused -/

/-- SYS with the word of CLS (R49). -/
theorem test_wellFormed_refuses_sys_0E0 : (Instr.sys 0x0E0).wellFormed = false := by decide
/-- SYS with the word of RET (R49). -/
theorem test_wellFormed_refuses_sys_0EE : (Instr.sys 0x0EE).wellFormed = false := by decide
/-- SYS with its neighbours. -/
theorem test_wellFormed_accepts_sys : (Instr.sys 0x0E1).WF ∧ (Instr.sys 0x0EF).WF ∧ (Instr.sys 0).WF := by decide

/-! ### Decoding: one word written out per constructor -/

theorem test_decode_groups_0_to_4 :
    decode 0b0000000100100011 = .instr (.sys 0x123) ∧
    decode 0b0000000011100000 = .instr .cls ∧
    decode 0b0000000011101110 = .instr .ret ∧
    decode 0b0001001001001000 = .instr (.jp 0x248) ∧
    decode 0b0010001100000000 = .instr (.call 0x300) ∧
    decode 0b0011001100010000 = .instr (.seImm 3 0x10) ∧
    decode 0b0100001100010000 = .instr (.sneImm 3 0x10) := by decide

theorem test_decode_groups_5_to_7_and_9 :
    decode 0b0101000100100000 = .instr (.seReg 1 2) ∧
    decode 0b0101000100100001 = .instr (.seReg 1 2) ∧
    decode 0b0110010110101011 = .instr (.ldImm 5 0xAB) ∧
    decode 0b0111001000000010 = .instr (.addImm 2 0x02) ∧
    decode 0b1001000100100000 = .instr (.sneReg 1 2) ∧
    decode 0b1001000100101111 = .instr (.sneReg 1 2) := by decide

theorem test_decode_group_8 :
    decode 0b1000000000010000 = .instr (.ldReg 0 1) ∧
    decode 0b1000000000010001 = .instr (.orReg 0 1) ∧
    decode 0b1000000000010010 = .instr (.andReg 0 1) ∧
    decode 0b1000000000010011 = .instr (.xorReg 0 1) ∧
    decode 0b1000000000010100 = .instr (.addReg 0 1) ∧
    decode 0b1000000000010101 = .instr (.subReg 0 1) ∧
    decode 0b1000000000010110 = .instr (.shr 0 1) ∧
    decode 0b1000000000010111 = .instr (.subn 0 1) ∧
    decode 0b1000000000011110 = .instr (.shl 0 1) ∧
    decode 0b1000000000011000 = .unassigned (.group8 8) ∧
    decode 0b1000000000011101 = .unassigned (.group8 13) ∧
    decode 0b1000000000011111 = .unassigned (.group8 15) := by decide

theorem test_decode_groups_A_to_E :
    decode 0b1010001011110000 = .instr (.ldI 0x2F0) ∧
    decode 0b1011001100000000 = .instr (.jpV0 0x300) ∧
    decode 0b1100001100001111 = .instr (.rnd 3 0x0F) ∧
    decode 0b1101000100100101 = .instr (.drw 1 2 5) ∧
    decode 0b1110000110011110 = .instr (.skp 1) ∧
    decode 0b1110000110100001 = .instr (.sknp 1) ∧
    decode 0b1110000110011111 = .unassigned (.groupE 0x9F) := by decide

theorem test_decode_group_F :
    decode 0b1111000000000111 = .instr (.ldVxDT 0) ∧
    decode 0b1111001000001010 = .instr (.ldVxK 2) ∧
    decode 0b1111000000010101 = .instr (.ldDTVx 0) ∧
    decode 0b1111001100011000 = .instr (.ldSTVx 3) ∧
    decode 0b1111010000011110 = .instr (.addI 4) ∧
    decode 0b1111001000101001 = .instr (.ldF 2) ∧
    decode 0b1111000000110011 = .instr (.ldB 0) ∧
    decode 0b1111001001010101 = .instr (.storeRegs 2) ∧
    decode 0b1111001001100101 = .instr (.loadRegs 2) ∧
    decode 0b1111001001100110 = .unassigned (.groupF 0x66) := by decide

/-- The high byte comes first (R36), and fewer than two bytes are no instruction (R45). -/
theorem test_decodeBytes :
    decodeBytes [0x12, 0x48, 0x60] = .instr (.jp 0x248) [0x60] ∧ decodeBytes [0x12] = .tooShort ∧
    decodeTableWord 16 0x8014 = some (.addReg 0 1) ∧ decodeTableWord 16 0x8018 = none := by decide

/-! ### Fetch and control flow -/

/-- T1. -/
theorem test_jp : after 0x1248 (fun t => (t.pc, t.status)) start = some (0x248, .running) := by decide
/-- T2: the last word of memory. -/
theorem test_fetch_last_word :
    after 0x00E0 (fun t => (t.pc, t.strobes)) (start.setPc 0xFFE) = some (0x1000, 1) := by decide
/-- T3 and T4: no word lies at 0x1000, and only half of one at 0xFFF. -/
theorem test_fetch_faults :
    afterSteps 1 (fun t => (t.pc, t.status)) (start.setPc 0x1000) =
      some (0x1000, .halted (.fatal (.addressOutOfRange (.address 0x1000)) 0x1000)) ∧
    afterSteps 1 (fun t => (t.pc, t.status)) (start.setPc 0xFFF) =
      some (0xFFF, .halted (.fatal (.addressOutOfRange (.address 0x1000)) 0xFFF)) := by decide
/-- T5: an odd address is as good as an even one. -/
theorem test_fetch_odd : after 0x6007 (fun t => (t.reg 0, t.pc)) (start.setPc 0x201) = some (0x07, 0x203) := by decide
/-- T6. -/
theorem test_sys : after 0x0123 (fun t => (t.pc, t.stack)) start = some (0x202, []) := by decide
/-- T8. -/
theorem test_ret_underflow :
    after 0x00EE (fun t => (t.pc, t.status)) start = some (0x202, .halted (.fatal .stackUnderflow 0x200)) := by decide
/-- T9. -/
theorem test_ret :
    after 0x00EE (fun t => (t.pc, t.stack)) { start with stack := [0x204, 0x310], pc := 0x400 } =
      some (0x310, [0x204]) := by decide
/-- T10. -/
theorem test_call : after 0x2300 (fun t => (t.pc, t.stack)) (start.setPc 0x202) = some (0x300, [0x204]) := by decide
/-- T11. -/
theorem test_call_overflow :
    after 0x2300 (fun t => (t.stack, t.status))
      { start with stack := [0x204, 0x304], params := { params with stackCapacity := some 2 } } =
      some ([0x204, 0x304], .halted (.fatal .stackOverflow 0x200)) := by decide
/-- T13, T14. -/
theorem test_seImm :
    after 0x3310 State.pc (withRegs [(3, 0x10)]) = some 0x204 ∧
    after 0x3310 State.pc (withRegs [(3, 0x11)]) = some 0x202 := by decide
/-- T15, T16. -/
theorem test_sneImm :
    after 0x4310 State.pc (withRegs [(3, 0x10)]) = some 0x202 ∧
    after 0x4310 State.pc (withRegs [(3, 0x11)]) = some 0x204 := by decide
/-- T18, T19, T20. -/
theorem test_seReg :
    after 0x5120 State.pc (withRegs [(1, 7), (2, 8)]) = some 0x202 ∧
    after 0x5121 State.pc (withRegs [(1, 7), (2, 7)]) = some 0x204 ∧
    after 0x5110 State.pc (withRegs [(1, 7)]) = some 0x204 := by decide
/-- T21, T22. -/
theorem test_sneReg :
    after 0x9120 State.pc (withRegs [(1, 7), (2, 8)]) = some 0x204 ∧
    after 0x9110 State.pc (withRegs [(1, 7)]) = some 0x202 := by decide
/-- T23, T24. -/
theorem test_jpV0 :
    after 0xB300 State.pc (withRegs [(0, 4)]) = some 0x304 ∧
    after 0xBFFF State.pc (withRegs [(0, 0xFF)]) = some 0x10FE := by decide

/-! ### Registers and arithmetic -/

/-- A1. -/
theorem test_ldImm : after 0x65AB (fun t => t.reg 5) start = some 0xAB := by decide
/-- A2, A3. -/
theorem test_addImm :
    after 0x7202 (fun t => (t.reg 2, t.reg 15)) (withRegs [(2, 0xFF)]) = some (1, 0) ∧
    after 0x7FFF (fun t => t.reg 15) (withRegs [(15, 1)]) = some 0 := by decide
/-- A4. -/
theorem test_ldReg : after 0x8010 (fun t => (t.reg 0, t.reg 1)) (withRegs [(1, 0x33)]) = some (0x33, 0x33) := by decide
/-- A5. -/
theorem test_orReg :
    after 0x8011 (fun t => (t.reg 0, t.reg 15)) (withRegs [(0, 0x0F), (1, 0xF0), (15, 0x55)]) = some (0xFF, 0x55) := by decide
/-- A6. -/
theorem test_andReg :
    after 0x8012 (fun t => (t.reg 0, t.reg 15)) (withRegs [(0, 0x3C), (1, 0x0F), (15, 0x55)]) = some (0x0C, 0x55) := by decide
/-- A7. -/
theorem test_xorReg :
    after 0x8013 (fun t => (t.reg 0, t.reg 15)) (withRegs [(0, 0xFF), (1, 0x0F), (15, 0x55)]) = some (0xF0, 0x55) := by decide
/-- A9, A10. -/
theorem test_addReg :
    after 0x8014 (fun t => (t.reg 0, t.reg 15)) (withRegs [(0, 0xC8), (1, 0x64)]) = some (0x2C, 1) ∧
    after 0x8014 (fun t => (t.reg 0, t.reg 15)) (withRegs [(0, 0x80), (1, 0x7F)]) = some (0xFF, 0) := by decide
/-- A12, A13: VF as destination and as source. -/
theorem test_addReg_flag_register :
    after 0x8F14 (fun t => t.reg 15) (withRegs [(15, 0x10), (1, 0xF5)]) = some 1 ∧
    after 0x8EF4 (fun t => (t.reg 14, t.reg 15)) (withRegs [(14, 1), (15, 0xFF)]) = some (0, 1) := by decide
/-- A16, A17. -/
theorem test_subReg :
    after 0x8015 (fun t => (t.reg 0, t.reg 15)) (withRegs [(0, 5), (1, 7)]) = some (0xFE, 0) ∧
    after 0x8015 (fun t => (t.reg 0, t.reg 15)) (withRegs [(0, 0x33), (1, 0x33)]) = some (0, 1) := by decide
/-- A19. -/
theorem test_subReg_flag_register : after 0x8F05 (fun t => t.reg 15) (withRegs [(15, 3), (0, 5)]) = some 0 := by decide
/-- A20, A21. -/
theorem test_subn :
    after 0x8017 (fun t => (t.reg 0, t.reg 15)) (withRegs [(0, 5), (1, 7)]) = some (2, 1) ∧
    after 0x8017 (fun t => (t.reg 0, t.reg 15)) (withRegs [(0, 7), (1, 5)]) = some (0xFE, 0) := by decide
/-- A23, A24. -/
theorem test_shr :
    after 0x8016 (fun t => (t.reg 0, t.reg 1, t.reg 15)) (withRegs [(0, 0xFF), (1, 3)]) = some (1, 3, 1) ∧
    after 0x8016 (fun t => (t.reg 0, t.reg 15))
      { withRegs [(0, 0xFF), (1, 3)] with params := { params with shiftSource := .vx } } = some (0x7F, 1) := by decide
/-- A28, A29. -/
theorem test_shl :
    after 0x801E (fun t => (t.reg 0, t.reg 15)) (withRegs [(1, 0x7F)]) = some (0xFE, 0) ∧
    after 0x801E (fun t => (t.reg 0, t.reg 15))
      { withRegs [(0, 0x81)] with params := { params with shiftSource := .vx } } = some (2, 1) := by decide
/-- A30, K6: an unassigned word moves PC and nothing else. -/
theorem test_unassigned :
    after 0x8018 (fun t => (t.reg 0, t.reg 15, t.pc)) (withRegs [(0, 0x12), (15, 0x34)]) = some (0x12, 0x34, 0x202) ∧
    after 0xE19F State.pc start = some 0x202 := by decide

/-- The registers a meaning answers with. -/
def regAfter (x : Reg) : Host.Outcome State Fault Refusal → Option Byte
  | .next t => some (t.reg x)
  | .fault _ => none
  | .refused _ => none

/-- A31, A32: the drawn byte 0xB7 masked; the draw itself has no value in Lean. -/
theorem test_rnd : regAfter 3 (rndWith 0xB7 3 0x0F start) = some 7 ∧ regAfter 3 (rndWith 0xB7 3 0 start) = some 0 := by decide

/-! ### Index register and memory -/

/-- M1. -/
theorem test_ldI : after 0xA2F0 State.i start = some 0x2F0 := by decide
/-- M3, M4. -/
theorem test_addI :
    after 0xF41E (fun t => (t.i, t.reg 15)) ((withRegs [(4, 1)]).setI 0xFFF) = some (0x1000, 0) ∧
    after 0xF41E (fun t => (t.i, t.reg 15)) ((withRegs [(4, 1)]).setI 0xFFFF) = some (0, 0) := by decide
/-- M6, E9. -/
theorem test_ldF :
    after 0xF229 State.i (withRegs [(2, 0xFF)]) = some 0x4B ∧
    after 0xF229 (fun t => t.mem.readList t.iAddr 5) (withRegs [(2, 0x0A)]) = some [0xF0, 0x90, 0xF0, 0x90, 0x90] := by decide
/-- M9, E6. -/
theorem test_ldB :
    after 0xF033 (fun t => (t.mem.readList 0xFFD 3, t.i)) ((withRegs [(0, 156)]).setI 0xFFD) =
      some ([1, 5, 6], 0xFFD) ∧
    after 0xF033 (fun t => t.mem.readList 0x300 3) ((withRegs [(0, 255)]).setI 0x300) = some [2, 5, 5] := by decide
/-- M10. -/
theorem test_ldB_fault :
    after 0xF033 (fun t => (t.mem.readList 0xFFE 2, t.status)) ((withRegs [(0, 156)]).setI 0xFFE) =
      some ([0, 0], .halted (.fatal (.addressOutOfRange (.address 0x1000)) 0x200)) := by decide
/-- M11, both values of `P_LOADSTORE_INC_I`. -/
theorem test_storeRegs :
    after 0xF255 (fun t => (t.mem.readList 0x400 4, t.i)) ((withRegs [(0, 1), (1, 2), (2, 3), (3, 4)]).setI 0x400) =
      some ([1, 2, 3, 0], 0x400) ∧
    after 0xF255 State.i { start.setI 0x400 with params := { params with loadStoreIncI := true } } = some 0x403 := by decide
/-- M14. -/
theorem test_storeRegs_fault :
    after 0xFF55 (fun t => (t.mem.read 0xFF1, t.i, t.status)) ((withRegs [(0, 1)]).setI 0xFF1) =
      some (0, 0xFF1, .halted (.fatal (.addressOutOfRange (.address 0x1000)) 0x200)) := by decide
/-- M16. -/
theorem test_loadRegs :
    after 0xF265 (fun t => ((t.reg 0, t.reg 1), (t.reg 2, t.reg 3), t.i))
      (store 0x400 [1, 2, 3, 4] (start.setI 0x400)) = some ((1, 2), (3, 0), 0x400) := by decide
/-- M18. -/
theorem test_loadRegs_fault :
    after 0xF065 State.status (start.setI 0xFFFF) =
      some (.halted (.fatal (.addressOutOfRange (.address 0xFFFF)) 0x200)) := by decide

/-! ### Display -/

/-- G12. -/
theorem test_cls :
    after 0x00E0 (fun t => (lit t, t.reg 15, t.strobes))
      { withRegs [(15, 0x33)] with fb := Vector.replicate 32 (BitVec.allOnes 64) } = some ([], 0x33, 1) := by decide
/-- G4: both coordinates wrap, pixel by pixel. -/
theorem test_drw_wraps :
    after 0xD012 (fun t => (lit t, t.reg 15)) (store 0x20C [0xC3, 0x81] ((withRegs [(0, 0x3E), (1, 0x1F)]).setI 0x20C)) =
      some ([(0, 5), (0, 62), (31, 4), (31, 5), (31, 62), (31, 63)], 0) := by decide
/-- G5. -/
theorem test_drw_fault :
    after 0xD012 (fun t => (t.status, lit t))
      { store 0x20C [0xC3, 0x81] ((withRegs [(0, 0x3E), (1, 0x1F)]).setI 0x20C) with
        params := { params with drawCoord := .fault } } =
      some (.halted (.fatal (.addressOutOfRange (.pixel 68 31)) 0x200), []) := by decide
/-- G10: the origin is read before VF is written. -/
theorem test_drw_origin_in_VF :
    after 0xDF11 (fun t => (lit t, t.reg 15)) (store 0x300 [0x80] ((withRegs [(15, 5)]).setI 0x300)) =
      some ([(0, 5)], 0) := by decide
/-- G1 then G2: drawn twice, the plane is empty again and VF is 1. -/
theorem test_drw_twice :
    after 0xD015 (fun t => (lit t, t.reg 15)) { start with fb := (drawPixels (drwPixels 0 1 5 start) start.fb false).1 } =
      some ([], 1) := by decide
/-- G11 and one more draw: by R116 the second draw finds a 0 where the first found a 1, so VF is 0 (entry 15). -/
theorem test_drw_on_a_set_pixel_twice :
    after 0xD011 (fun t => (lit t, t.reg 15)) { store 0x300 [0x80] (start.setI 0x300) with fb := togglePixel start.fb 0 0 } =
      some ([], 1) ∧
    after 0xD011 (fun t => (lit t, t.reg 15)) (store 0x300 [0x80] ((withRegs [(15, 1)]).setI 0x300)) =
      some ([(0, 0)], 0) := by decide

/-! ### Timers, keys and the agents -/

/-- K1, K2 and K4. -/
theorem test_skp :
    after 0xE19E State.pc { withRegs [(1, 5)] with keys := start.keys.set 5 true } = some 0x204 ∧
    after 0xE19E State.pc (withRegs [(1, 5)]) = some 0x202 ∧
    after 0xE19E State.status (withRegs [(1, 16)]) =
      some (.halted (.fatal (.addressOutOfRange (.key 16)) 0x200)) := by decide
/-- K3, K5. -/
theorem test_sknp :
    after 0xE1A1 State.pc (withRegs [(1, 5)]) = some 0x204 ∧
    after 0xE1A1 State.status (withRegs [(1, 255)]) =
      some (.halted (.fatal (.addressOutOfRange (.key 255)) 0x200)) := by decide
/-- K7. -/
theorem test_ldVxDT : after 0xF007 (fun t => t.reg 0) (start.setDT 0x3C) = some 0x3C := by decide
/-- K8: DT after F015, then after the sixth tick. -/
theorem test_ldDTVx :
    after 0xF015 State.dt (withRegs [(0, 5)]) = some 5 ∧
    afterSteps 6 State.dt { start.setDT 5 with schedule := List.replicate 6 .tick } = some 0 := by decide
/-- K9. -/
theorem test_ldSTVx : after 0xF318 State.st (withRegs [(3, 0x10)]) = some 0x10 := by decide
/-- K12, K15: a key held down does not count. -/
theorem test_ldVxK :
    after 0xF20A (fun t => (t.status, t.pc)) { start with keys := start.keys.set 3 true } =
      some (.waiting 2 [], 0x202) := by decide
/-- K13, K14: a press, then the resume. -/
theorem test_keyWait :
    afterSteps 1 (fun t => (t.status, t.keyDown 7))
      { start with status := .waiting 2 [], schedule := [.keyEvent 7 .pressed] } = some (.waiting 2 [7], true) ∧
    afterSteps 2 (fun t => (t.status, t.reg 2))
      { start with status := .waiting 2 [], schedule := [.keyEvent 7 .pressed] } = some (.running, 7) := by decide
/-- K18. -/
theorem test_keyWait_scanCode :
    afterSteps 1 (fun t => (t.status, t.reg 2))
      { start with status := .waiting 2 [7], params := { params with keyWaitValue := .scanCode } } =
      some (.running, 0x37) := by decide
/-- K19. -/
theorem test_stop :
    afterSteps 1 (fun t => (t.status, t.stop, t.reg 2)) { start with status := .waiting 2 [], schedule := [.stop] } =
      some (.halted .quit, true, 0) := by decide
/-- K10, K11. -/
theorem test_tick :
    afterSteps 1 (fun t => (t.dt, t.st)) { start with st := 3, schedule := [.tick] } = some (0, 2) ∧
    afterSteps 1 (fun t => (t.dt, t.st)) { start with dt := 1, schedule := [.tick] } = some (0, 0) := by decide
/-- K21: a press of a key already down. -/
theorem test_keyEvent_repeat :
    afterSteps 1 (fun t => (t.status, t.keys))
      { start with status := .waiting 2 [], keys := start.keys.set 4 true, schedule := [.keyEvent 4 .pressed] } =
      some (.waiting 2 [], start.keys.set 4 true) := by decide
/-- R145. -/
theorem test_halted : afterSteps 1 State.pc { start with status := .halted .quit } = none := by decide

/-! ### Reset -/

set_option maxRecDepth 4000 in
/-- Z1. -/
theorem test_boot :
    (match boot params defaultFont (.bytes [0x12, 0x00]) with
      | .ok s => some (s.mem.readList 0x1FF 4, s.mem.readList 0 5, s.pc, s.status)
      | .error _ => none) = some ([0, 0x12, 0, 0], [0xF0, 0x90, 0x90, 0x90, 0xF0], 0x200, .loaded) := by decide
/-- Z5. -/
theorem test_boot_absent :
    (match boot params defaultFont .absent with
      | .ok _ => none
      | .error e => some e) = some LoadError.absent := by decide

/-! ### Witnesses: hypotheses that can be met -/

/-- A pixel row with column 0 set, for the collision cases. -/
def startLit : State := { start with fb := togglePixel start.fb 0 0 }

/-- Whether an instruction answers a next state with another value of `f`. -/
def changes {α : Type} [BEq α] (i : Instr) (f : State → α) (s : State) : Bool :=
  match exec i s with
  | .next t => f t != f s
  | .fault _ => false
  | .refused _ => false

/-- The fatal condition an instruction halts with. -/
def fatalAfter (i : Instr) (s : State) : Option Fatal :=
  match exec i s with
  | .next t =>
    match t.status with
    | .halted (.fatal r _) => some r
    | _ => none
  | .fault _ => none
  | .refused _ => none

theorem witness_DecodeOfEncodeIsTheInstruction :
    (Instr.sys 0x0EF).WF ∧ (Instr.sys 0xFFF).WF ∧ (Instr.drw 15 0 15).WF ∧ (Instr.loadRegs 15).WF := by decide

theorem witness_EncodeOfDecodeIsTheWord :
    decode 0x5127 = .instr (.seReg 1 2) ∧ opField 0x5127 = 5 ∧ decode 0x912F = .instr (.sneReg 1 2) ∧ opField 0x912F = 9 ∧
    decode 0xD12F = .instr (.drw 1 2 15) ∧ decode 0x0000 = .instr (.sys 0) := by decide

theorem witness_UnassignedWordsAreNoOps :
    (store 0xFFE [0xF0, 0xFF] (start.setPc 0xFFE)).pc.toNat + 1 ≤ 0xFFF ∧
    decode (fetchedWord (store 0xFFE [0xF0, 0xFF] (start.setPc 0xFFE))) = .unassigned (.groupF 0xFF) ∧
    decode 0x801F = .unassigned (.group8 15) ∧ decode 0xE19F = .unassigned (.groupE 0x9F) := by decide

theorem witness_StepRunsTheDecodedInstruction_last_word :
    (store 0xFFE [0x00, 0xE0] (start.setPc 0xFFE)).fetching = true ∧
    InterpreterNext (store 0xFFE [0x00, 0xE0] (start.setPc 0xFFE)) [] ∧
    (store 0xFFE [0x00, 0xE0] (start.setPc 0xFFE)).pc.toNat + 1 ≤ 0xFFF ∧
    decode ((store 0xFFE [0x00, 0xE0] start).mem.read 0xFFE ++ (store 0xFFE [0x00, 0xE0] start).mem.read 0xFFF) =
      .instr .cls :=
  ⟨by decide, .inl ⟨rfl, rfl⟩, by decide, by decide⟩

theorem witness_StepRunsTheDecodedInstruction_turn_given :
    State.fetching { State.reset with schedule := [.interpreter, .tick] } = true ∧
    InterpreterNext { State.reset with schedule := [.interpreter, .tick] } [.tick] ∧
    State.reset.pc.toNat + 1 ≤ 0xFFF ∧
    decode (State.reset.mem.read 0x200 ++ State.reset.mem.read 0x201) = .instr (.sys 0) :=
  ⟨by decide, .inr rfl, by decide, by decide⟩

theorem witness_FetchOutsideMemoryHalts :
    InterpreterNext (start.setPc 0xFFF) [] ∧ (start.setPc 0xFFF).fetching = true ∧ 0xFFE < (start.setPc 0xFFF).pc.toNat ∧
    0xFFE < (start.setPc 0x1000).pc.toNat ∧ 0xFFE < (start.setPc 0xFFFF).pc.toNat :=
  ⟨.inl ⟨rfl, rfl⟩, by decide⟩

theorem witness_HaltedIsFinal : State.status { start with status := .halted .quit, schedule := [.tick] } = .halted .quit := by
  decide

theorem witness_TickDecrementsBothTimers :
    State.live { start with st := 1, status := .waiting 2 [], schedule := [.tick] } = true ∧
    State.schedule { start with st := 1, status := .waiting 2 [], schedule := [.tick] } = .tick :: [] := by decide

theorem witness_TicksNeverDriveATimerBelowZero :
    State.live { start with dt := 5, schedule := [.tick, .tick, .tick, .tick, .tick, .tick, .stop] } = true ∧
    State.schedule { start with dt := 5, schedule := [.tick, .tick, .tick, .tick, .tick, .tick, .stop] } =
      List.replicate 6 .tick ++ [.stop] := by decide

/-- Clause 1 of the status: a press of a released key in a wait. -/
theorem witness_KeyEventUpdatesLatchAndWait_joins :
    State.live { start with status := .waiting 2 [3], schedule := [.keyEvent 15 .pressed] } = true ∧
    State.schedule { start with status := .waiting 2 [3], schedule := [.keyEvent 15 .pressed] } =
      .keyEvent 15 .pressed :: [] ∧ start.keyDown 15 = false := by decide

/-- Clause 2: no wait, a release in a wait, a press of a key already down in a wait. -/
theorem witness_KeyEventUpdatesLatchAndWait_stays :
    (∀ x ks, start.status ≠ .waiting x ks) ∧
    State.schedule { start with status := .waiting 2 [0], schedule := [.keyEvent 0 .released] } =
      .keyEvent 0 .released :: [] ∧
    State.keyDown { start with status := .waiting 2 [], keys := start.keys.set 4 true } 4 = true :=
  ⟨fun _ _ h => (nomatch h), by decide, by decide⟩

theorem witness_StopHaltsAtOnce :
    State.live { start with status := .waiting 2 [], schedule := [.stop, .tick] } = true ∧
    State.schedule { start with status := .waiting 2 [], schedule := [.stop, .tick] } = .stop :: [.tick] := by decide

theorem witness_KeyWaitEntryWaits : opField 0xFF0A = 0xF ∧ (nnField 0xFF0A).toNat = 0x0A := by decide

/-- Two keys to choose from, and both values of `P_KEYWAIT_VALUE`. -/
theorem witness_KeyWaitResumesWithAPressedKey :
    State.status { start with status := .waiting 2 [3, 15] } = .waiting 2 [3, 15] ∧ ([3, 15] : List Key) ≠ [] ∧
    InterpreterNext { start with status := .waiting 2 [3, 15] } [] ∧
    start.params.keyWaitValue = .logicalIndex ∧
    State.status { start with status := .waiting 15 [0], params := { params with keyWaitValue := .scanCode } } =
      .waiting 15 [0] ∧
    Params.keyWaitValue { params with keyWaitValue := .scanCode } = .scanCode :=
  ⟨by decide, by decide, .inl ⟨rfl, rfl⟩, by decide⟩

theorem witness_KeyWaitWithoutPressPasses :
    State.status { start with status := .waiting 2 [], schedule := [.interpreter, .tick] } = .waiting 2 [] ∧
    InterpreterNext { start with status := .waiting 2 [], schedule := [.interpreter, .tick] } [.tick] :=
  ⟨by decide, .inr rfl⟩

theorem witness_SelfJumpRunsForever :
    (store 0xFFE [0x1F, 0xFE] (start.setPc 0xFFE)).fetching = true ∧
    (store 0xFFE [0x1F, 0xFE] (start.setPc 0xFFE)).schedule = [] ∧ (0xFFE : Word).toNat + 1 ≤ 0xFFF ∧
    (0xFFE : Word).toNat = (0xFFE : Addr12).toNat ∧
    decode ((store 0xFFE [0x1F, 0xFE] start).mem.read 0xFFE ++ (store 0xFFE [0x1F, 0xFE] start).mem.read 0xFFF) =
      .instr (.jp 0xFFE) := by decide

/-- A state far from reset: memory listed, a wait with two keys, a full stack. -/
def busy : State :=
  { store 0x300 [1, 2] start with
    stack := [0x204, 0x304]
    params := { params with stackCapacity := some 2 }
    status := .waiting 2 [3, 9]
    schedule := [.keyEvent 5 .pressed, .stop] }

theorem witness_EveryStepKeepsTheInvariant : busy.Inv ∧ afterSteps 1 State.status busy = some (.waiting 2 [3, 5, 9]) :=
  ⟨⟨by decide, by decide, by decide, by decide⟩, by decide⟩

theorem witness_BootMeetsTheInvariant : ∃ s, boot params defaultFont (.bytes [0x12, 0x00]) = .ok s := ⟨_, rfl⟩

theorem witness_StepsNeverChangeParameters :
    afterSteps 1 State.params busy = some { params with stackCapacity := some 2 } := by decide

/-- Every change the statement speaks of happens. -/
theorem witness_OnlyTheNamedInstructionsWriteEachStateButV :
    changes (.ldI 1) State.i start ∧ changes (.addI 4) State.i (withRegs [(4, 1)]) ∧
    changes (.ldF 2) State.i (withRegs [(2, 1)]) ∧
    changes (.storeRegs 0) State.i { start with params := { params with loadStoreIncI := true } } ∧
    changes (.loadRegs 0) State.i { start with params := { params with loadStoreIncI := true } } ∧
    changes (.jp 0) State.pc start ∧ changes (.call 0) State.stack start ∧ changes .ret State.stack busy ∧
    changes (.ldDTVx 1) State.dt (withRegs [(1, 1)]) ∧ changes (.ldSTVx 1) State.st (withRegs [(1, 1)]) ∧
    changes .cls State.fb startLit ∧ changes (.drw 0 0 1) State.fb start ∧
    changes (.ldB 0) State.mem start ∧ changes (.storeRegs 0) State.mem start := by decide

/-- A register of each kind of clause changes, the highest of a load among them. -/
theorem witness_OnlyTheNamedInstructionsWriteV0ToVF :
    changes (.ldImm 5 0xAB) (fun s => s.reg 5) start ∧ changes (.shl 15 1) (fun s => s.reg 15) (withRegs [(1, 0x80)]) ∧
    changes (.ldVxDT 0) (fun s => s.reg 0) (start.setDT 1) ∧
    changes (.loadRegs 3) (fun s => s.reg 3) start ∧ changes (.subReg 0 1) (fun s => s.reg 15) start ∧
    changes (.drw 0 0 1) (fun s => s.reg 15) startLit := by decide

theorem witness_OnlyFlagWritersAndDestinationsChangeVF :
    changes (.subReg 0 1) (fun s => s.reg 15) start ∧ changes (.addReg 15 1) (fun s => s.reg 15) (withRegs [(15, 1)]) ∧
    changes (.drw 0 0 1) (fun s => s.reg 15) startLit ∧ changes (.ldImm 15 2) (fun s => s.reg 15) start ∧
    changes (.orReg 15 1) (fun s => s.reg 15) (withRegs [(1, 1)]) ∧
    changes (.ldVxDT 15) (fun s => s.reg 15) (start.setDT 1) ∧
    changes (.loadRegs 15) (fun s => s.reg 15) start := by decide

theorem witness_FatalConditionsArePrecise : start.live = true ∧ afterExec .ret State.live start = some false := by decide

/-- Each row of the table at its boundary: the last value without the condition and the first with it. -/
theorem witness_FatalConditionsAreExactlyTheTable_control_and_keys :
    fatalAfter .ret start = some .stackUnderflow ∧ fatalAfter .ret busy = none ∧
    fatalAfter (.call 0) busy = some .stackOverflow ∧ fatalAfter (.call 0) { busy with stack := [0x204] } = none ∧
    fatalAfter (.skp 1) (withRegs [(1, 15)]) = none ∧
    fatalAfter (.skp 1) (withRegs [(1, 16)]) = some (.addressOutOfRange (.key 16)) ∧
    fatalAfter (.sknp 1) (withRegs [(1, 16)]) = some (.addressOutOfRange (.key 16)) := by decide

theorem witness_FatalConditionsAreExactlyTheTable_memory :
    fatalAfter (.ldB 0) (start.setI 0xFFD) = none ∧
    fatalAfter (.ldB 0) (start.setI 0xFFE) = some (.addressOutOfRange (.address 0x1000)) ∧
    fatalAfter (.storeRegs 15) (start.setI 0xFF0) = none ∧
    fatalAfter (.storeRegs 15) (start.setI 0xFF1) = some (.addressOutOfRange (.address 0x1000)) ∧
    fatalAfter (.loadRegs 0) (start.setI 0xFFF) = none ∧
    fatalAfter (.loadRegs 0) (start.setI 0x1001) = some (.addressOutOfRange (.address 0x1001)) := by decide

theorem witness_FatalConditionsAreExactlyTheTable_drw :
    fatalAfter (.drw 0 0 0) (start.setI 0xFFFF) = none ∧ fatalAfter (.drw 0 0 1) (start.setI 0xFFF) = none ∧
    fatalAfter (.drw 0 0 2) (start.setI 0xFFF) = some (.addressOutOfRange (.address 0x1000)) ∧
    fatalAfter (.drw 0 1 1) { store 0x300 [0xC0] ((withRegs [(0, 62)]).setI 0x300) with
      params := { params with drawCoord := .fault } } = none ∧
    fatalAfter (.drw 0 1 1) { store 0x300 [0xC0] ((withRegs [(0, 63)]).setI 0x300) with
      params := { params with drawCoord := .fault } } = some (.addressOutOfRange (.pixel 64 0)) := by decide

/-- The place the last clause speaks of: row 0, column 1 of that sprite is its first set bit outside the plane. -/
theorem witness_FatalConditionsAreExactlyTheTable_pixel :
    FirstSpriteOff (store 0x300 [0xC0] ((withRegs [(0, 63)]).setI 0x300)) 0 1 1 0 1 := by
  refine ⟨⟨by decide, by decide, by decide⟩, .inl (by decide), ?_⟩
  rintro k j ⟨-, -, -⟩ (h | ⟨h, h'⟩)
  · exact absurd h (Nat.not_lt_zero _)
  · subst h
    have hj : j = 0 := by omega
    subst hj
    rintro (h | h)
    · exact absurd h (by decide)
    · exact absurd h (by decide)

theorem witness_OnlyDisplayInstructionsStrobe :
    afterExec .cls State.strobes start = some 1 ∧ afterExec (.drw 0 0 5) State.strobes start = some 1 ∧
    afterExec (.drw 0 0 2) (fun t => (t.strobes, t.live)) (start.setI 0xFFF) = some (0, false) ∧
    afterExec (.jp 0) State.strobes start = some 0 := by decide

theorem witness_NoInstructionReadsTheSoundTimer :
    afterExec (.ldSTVx 1) State.st (withRegs [(1, 9)]) = some 9 ∧ afterExec (.jp 0) State.st (start.setST 3) = some 3 := by
  decide

/-- An image of n bytes, all 1, is accepted or not by its length. -/
theorem boot_replicate (n : Nat) :
    (n ≤ 3584 → ∃ s, boot params defaultFont (.bytes (List.replicate n 1)) = .ok s) ∧
    (3584 < n → boot params defaultFont (.bytes (List.replicate n 1)) = .error .oversized) := by
  constructor <;> intro h
  · exact ⟨_, if_pos (by simpa [imageCapacity] using h)⟩
  · exact if_neg (by simpa [imageCapacity] using h)

/-- E7: Z2 and Z3, the longest image that is accepted and the shortest that is not. -/
theorem witness_ImageAcceptedExactlyUpToCapacity :
    (∃ s, boot params defaultFont (.bytes (List.replicate 3584 1)) = .ok s) ∧
    boot params defaultFont (.bytes (List.replicate 3585 1)) = .error .oversized :=
  ⟨(boot_replicate 3584).1 (Nat.le_refl _), (boot_replicate 3585).2 (Nat.lt_succ_self _)⟩

theorem witness_BootLoadsFontAndImage :
    (∃ s, boot params defaultFont (.bytes [0x12, 0x00]) = .ok s) ∧ 79 < 80 ∧ 80 ≤ 0x1FF ∧ 0x1FF < 0x200 ∧
    1 < ([0x12, 0x00] : List Byte).length ∧ 0x200 + ([0x12, 0x00] : List Byte).length ≤ 0x202 :=
  ⟨⟨_, rfl⟩, by decide⟩

theorem witness_ReadReturnsTheMostRecentWrite :
    (∀ w ∈ ([(0, 1), (4095, 2), (0, 3)] : List (Nat × Byte)), w.1 < 4096) ∧
    ([(0, 1), (4095, 2), (0, 3)] : List (Nat × Byte)).reverse.find? (fun w => w.1 == 0) = some (0, 3) ∧
    ([(0, 1), (4095, 2), (0, 3)] : List (Nat × Byte)).reverse.find? (fun w => w.1 == 1) = none := by decide

/-- Two ways to one memory. -/
theorem witness_CanonicalMemoriesWithEqualBytesAreEqual :
    Memory.wf (Memory.writeList [] 0x300 [1, 2]) = true ∧
    Memory.wf (Memory.write (Memory.write (Memory.write [] 0x301 2) 0x300 7) 0x300 1) = true ∧
    Memory.writeList [] 0x300 [1, 2] = Memory.write (Memory.write (Memory.write [] 0x301 2) 0x300 7) 0x300 1 := by decide

theorem witness_StoreIsSeenByTheNextFetch :
    0 < (1 : Reg).val ∧ (start.setI 0xFFE).i.toNat + (1 : Reg).val ≤ 0xFFF ∧
    afterExec (.storeRegs 1) (fun t => fetchedWord (t.setPc 0xFFE)) ((withRegs [(0, 0x12), (1, 0x48)]).setI 0xFFE) =
      some 0x1248 := by decide

theorem witness_SysDoesNothing :
    opField 0x0000 = 0 ∧ (0x0000 : Word) ≠ 0x00E0 ∧ (0x0000 : Word) ≠ 0x00EE ∧ opField 0x0FFF = 0 ∧ opField 0x00E1 = 0 := by
  decide

theorem witness_ReturnPopsIntoPc :
    State.stack { start with stack := [0x204, 0xFFFF] } = [0x204] ++ [0xFFFF] ∧
    State.stack { start with stack := [0x204] } = [] ++ [0x204] ∧ start.stack = [] := by decide

theorem witness_JumpSetsPc : opField 0x1000 = 1 ∧ opField 0x1FFF = 1 := by decide

/-- Clause 1: unbounded, and one below the capacity. Clause 2: at the capacity, and a capacity of none. -/
theorem witness_CallPushesAndJumps :
    opField 0x2FFF = 2 ∧ start.params.stackCapacity ≠ some start.sp ∧
    Params.stackCapacity { params with stackCapacity := some 2 } ≠ some (State.sp { start with stack := [0x204] }) ∧
    busy.params.stackCapacity = some busy.sp ∧
    State.params { start with params := { params with stackCapacity := some 0 } } =
      { params with stackCapacity := some start.sp } := by decide

theorem witness_CallThenReturnRestoresPc :
    Params.stackCapacity { params with stackCapacity := some 1 } ≠ some start.sp ∧
    State.stack { store 0x300 [1] (withRegs [(3, 7)]) with stack := [0x200] } = [0x200] ∧
    afterExec (.call 0x300) State.stack start = some [0x200] := by decide

theorem witness_ImmediateSkips :
    opField 0x3310 = 3 ∧ opField 0x4310 = 4 ∧ (withRegs [(3, 0x10)]).reg 3 = 0x10 ∧ (withRegs [(3, 0x10)]).reg 3 ≠ 0x11 := by
  decide

theorem witness_RegisterSkips :
    opField 0x512F = 5 ∧ opField 0x912F = 9 ∧ start.reg 1 = start.reg 2 ∧ (withRegs [(1, 7)]).reg 1 ≠ (withRegs [(1, 7)]).reg 2 := by
  decide

theorem witness_IndexedJumpAddsV0 : opField 0xBFFF = 0xB := by decide

theorem witness_LoadsAndAddImmediate :
    opField 0x6FFF = 6 ∧ opField 0x7FFF = 7 ∧ opField 0x8FF0 = 8 ∧ (nField 0x8FF0).val = 0 := by decide

theorem witness_BitwiseOperations :
    opField 0x8011 = 8 ∧ (nField 0x8011).val = 1 ∧ (nField 0x8012).val = 2 ∧ (nField 0x8013).val = 3 := by decide

/-- At the edge of the carry, and with the destination VF and another. -/
theorem witness_AddRegistersSetsCarry :
    opField 0x8014 = 8 ∧ (nField 0x8014).val = 4 ∧ (0 : Reg) ≠ 15 ∧
    ((withRegs [(0, 0xFF), (1, 1)]).reg 0).toNat + ((withRegs [(0, 0xFF), (1, 1)]).reg 1).toNat > 255 ∧
    ¬ ((withRegs [(0, 0xFF)]).reg 0).toNat + ((withRegs [(0, 0xFF)]).reg 1).toNat > 255 := by decide

theorem witness_SubtractionsSetNotBorrow :
    opField 0x8015 = 8 ∧ (nField 0x8015).val = 5 ∧ (nField 0x8017).val = 7 ∧ (14 : Reg) ≠ 15 := by decide

/-- Both values of `P_SHIFT_SOURCE`. -/
theorem witness_ShiftsSetTheBitShiftedOut :
    opField 0x8016 = 8 ∧ (nField 0x8016).val = 6 ∧ (nField 0x801E).val = 0xE ∧ start.params.shiftSource = .vy ∧
    State.params { start with params := { params with shiftSource := .vx } } = { params with shiftSource := .vx } ∧
    (0 : Reg) ≠ 15 := by decide

theorem witness_RandomByteIsMasked : opField 0xCFFF = 0xC := by decide

theorem witness_IndexRegisterInstructions :
    opField 0xAFFF = 0xA ∧ opField 0xF41E = 0xF ∧ (nnField 0xF41E).toNat = 0x1E ∧ (nnField 0xF229).toNat = 0x29 := by decide

/-- The last I that is in range and the first that is not. -/
theorem witness_BcdStoresThreeDigits :
    (nnField 0xF033).toNat = 0x33 ∧ (start.setI 0xFFD).i.toNat + 2 ≤ 0xFFF ∧ 0xFFF < (start.setI 0xFFE).i.toNat + 2 ∧
    0xFFF < (start.setI 0xFFFF).i.toNat + 2 := by decide

theorem witness_RegisterDumpStoresInOrder :
    (nnField 0xFF55).toNat = 0x55 ∧ (start.setI 0xFF0).i.toNat + (15 : Reg).val ≤ 0xFFF ∧
    0xFFF < (start.setI 0xFF1).i.toNat + (15 : Reg).val ∧ (start.setI 0xFFF).i.toNat + (0 : Reg).val ≤ 0xFFF ∧
    0xFFF < (start.setI 0x1000).i.toNat + (0 : Reg).val ∧ start.params.loadStoreIncI = false ∧
    Params.loadStoreIncI { params with loadStoreIncI := true } = true := by decide

theorem witness_RegisterLoadReadsInOrder :
    (nnField 0xFF65).toNat = 0x65 ∧ (start.setI 0xFF0).i.toNat + (15 : Reg).val ≤ 0xFFF ∧
    0xFFF < (start.setI 0xFF1).i.toNat + (15 : Reg).val ∧ (start.setI 0xFFF).i.toNat + (0 : Reg).val ≤ 0xFFF ∧
    0xFFF < (start.setI 0x1000).i.toNat + (0 : Reg).val ∧ start.params.loadStoreIncI = false ∧
    Params.loadStoreIncI { params with loadStoreIncI := true } = true := by decide

/-- The dump of V0..V2 to 0x300; the state loaded in has its memory and I and other registers. -/
theorem witness_LoadInvertsDump :
    (start.setI 0x300).i.toNat + (2 : Reg).val ≤ 0xFFF ∧
    afterExec (.storeRegs 2) State.mem ((withRegs [(0, 1), (1, 2), (2, 3)]).setI 0x300) =
      some (store 0x300 [1, 2, 3] start).mem ∧
    State.i { (withRegs [(0, 9)]).setI 0x300 with mem := (store 0x300 [1, 2, 3] start).mem } = (start.setI 0x300).i := by decide

/-- Nothing lies outside the plane: a sprite that ends in column 63, in row 31, with `P_DRAW_COORD = Fault`. -/
theorem witness_DrawXorsTheWrappedSprite_fault :
    Drawable { store 0xFFF [0xC0] ((withRegs [(0, 62), (1, 31)]).setI 0xFFF) with
      params := { params with drawCoord := .fault } } 0 1 1 := by
  refine ⟨.inr (by decide), ?_⟩
  rintro - k j ⟨hk, hj, hb⟩ hoff
  have hk0 : k = 0 := by
    have : k < 1 := hk
    omega
  subst hk0
  have h2 : ∀ j < 8, (0xC0 : Byte).getLsbD (7 - j) = true → j < 2 := by decide
  have h3 : j < 2 := h2 j hj hb
  rcases hoff with h | h
  · have : 63 < 62 + j := h
    omega
  · exact absurd h (by decide)

/-- `Wrap`: the last byte of memory, no byte at all beside memory, and the four cases of a pixel the statement tells apart. -/
theorem witness_DrawXorsTheWrappedSprite :
    opField 0xD012 = 0xD ∧ Drawable (start.setI 0xFFF) 0 1 1 ∧ Drawable (start.setI 0xFFFF) 0 1 0 ∧ Drawable startLit 0 1 1 ∧
    SpriteLands startLit 0 1 1 0 0 ∧ pixel startLit.fb 0 0 = true ∧ SpriteLands start 0 1 1 0 3 ∧ pixel start.fb 0 3 = false ∧
    ¬ SpriteLands start 0 1 0 0 0 :=
  ⟨by decide, ⟨.inr (by decide), fun h => (nomatch h)⟩, ⟨.inl rfl, fun h => (nomatch h)⟩, ⟨.inr (by decide), fun h => (nomatch h)⟩,
    ⟨0, 0, ⟨by decide, by decide, by decide⟩, by decide, by decide⟩, by decide, ⟨0, 3, ⟨by decide, by decide, by decide⟩, by decide, by decide⟩, by decide,
    fun ⟨_, _, ⟨h, _, _⟩, _, _⟩ => absurd h (Nat.not_lt_zero _)⟩

/-- The second draw is made in the state after the first with another PC and status. -/
theorem witness_DrawingTwiceRestoresTheFramebuffer :
    (0 : Reg) ≠ 15 ∧ (1 : Reg) ≠ 15 ∧ Drawable start 0 1 5 ∧
    ∃ t, exec (.drw 0 1 5) start = .next t ∧
      State.fb { t with pc := 0x300, status := .waiting 2 [] } = t.fb ∧
      (∃ r c, SpriteLands start 0 1 5 r c ∧ pixel start.fb r c = false) :=
  ⟨by decide, by decide, ⟨.inr (by decide), fun h => (nomatch h)⟩, _, rfl, rfl, 0, 3,
    ⟨0, 3, ⟨by decide, by decide, by decide⟩, by decide, by decide⟩, by decide⟩

/-- The other clause: every pixel the sprite lands on is set before. -/
theorem witness_DrawingTwiceRestoresTheFramebuffer_all_set :
    Drawable (store 0x300 [0x80] (startLit.setI 0x300)) 0 1 1 ∧
    ∀ r c, SpriteLands (store 0x300 [0x80] (startLit.setI 0x300)) 0 1 1 r c →
      pixel (store 0x300 [0x80] (startLit.setI 0x300)).fb r c = true := by
  refine ⟨⟨.inr (by decide), fun h => (nomatch h)⟩, ?_⟩
  rintro r c ⟨k, j, ⟨hk, hj, hb⟩, hr, hc⟩
  have hk0 : k = 0 := by
    have : k < 1 := hk
    omega
  subst hk0
  have h2 : ∀ j < 8, (0x80 : Byte).getLsbD (7 - j) = true → j = 0 := by decide
  have h3 : j = 0 := h2 j hj hb
  subst h3
  have hr0 : r = 0 := Fin.ext hr.symm
  have hc0 : c = 0 := Fin.ext hc.symm
  subst hr0
  subst hc0
  decide

/-- What the text of R116 says of a DRW V0, V1, 1 that takes s to t, whatever meaning is given to it: it flips the pixels the sprite
lands on, VF = 1 iff one of them went from 1 to 0, and the origin, I and memory stay. No definition of `exec` is named. -/
def DrawnByR116 (s t : State) : Prop :=
  (∀ r c, SpriteLands s 0 1 1 r c → pixel t.fb r c = !pixel s.fb r c) ∧
    (t.reg 15 = 1 ↔ ∃ r c, SpriteLands s 0 1 1 r c ∧ pixel s.fb r c = true) ∧
    t.reg 0 = s.reg 0 ∧ t.reg 1 = s.reg 1 ∧ t.i = s.i ∧ t.mem = s.mem

/-- The last sentence of R118 cannot be had together with R116 (entry 15): after two draws that R116 describes, of a one-pixel
sprite on its pixel set before, VF is not 1, and the sprite has a set bit. -/
theorem r116_excludes_the_last_sentence_of_r118 (t u : State)
    (first : DrawnByR116 (store 0x300 [0x80] (startLit.setI 0x300)) t) (second : DrawnByR116 t u) :
    u.reg 15 ≠ 1 ∧ SpriteBit (store 0x300 [0x80] (startLit.setI 0x300)) 1 0 0 := by
  refine ⟨fun hv => ?_, by decide, by decide, by decide⟩
  obtain ⟨flips, -, h0, h1, hi, hm⟩ := first
  obtain ⟨r, c, hl, hp⟩ := second.2.1.1 hv
  have hl' : SpriteLands (store 0x300 [0x80] (startLit.setI 0x300)) 0 1 1 r c := by
    simpa only [SpriteLands, SpriteBit, State.iAddr, h0, h1, hi, hm] using hl
  rw [flips r c hl', witness_DrawingTwiceRestoresTheFramebuffer_all_set.2 r c hl'] at hp
  exact absurd hp (by decide)

/-- A one-pixel sprite at 0x300 with origin (0, 0) lands on pixel (0, 0) and on no other. -/
theorem one_pixel_lands (s : State) (h0 : s.reg 0 = 0) (h1 : s.reg 1 = 0) (hi : s.i = 0x300)
    (hm : s.mem = [(0x300, 0x80)]) (r : Fin 32) (c : Fin 64) :
    SpriteLands s 0 1 1 r c ↔ r = 0 ∧ c = 0 := by
  have hb : ∀ j < 8, (Memory.read [(0x300, 0x80)] 0x300).getLsbD (7 - j) = true ↔ j = 0 := by decide
  constructor
  · rintro ⟨k, j, ⟨hk, hj, hbit⟩, hr, hc⟩
    have hk0 : k = 0 := Nat.lt_one_iff.1 hk
    subst hk0
    rw [hm, State.iAddr, hi] at hbit
    have hj0 : j = 0 := (hb j hj).1 hbit
    subst hj0
    rw [h1] at hr
    rw [h0] at hc
    exact ⟨Fin.ext hr.symm, Fin.ext hc.symm⟩
  · rintro ⟨rfl, rfl⟩
    refine ⟨0, 0, ⟨Nat.one_pos, by decide, ?_⟩, by rw [h1]; decide, by rw [h0]; decide⟩
    rw [hm, State.iAddr, hi]
    exact (hb 0 (by decide)).2 rfl

/-- The two draws of the theorem above are those of the model: its DRW does what R116 says, the first time and the second. -/
theorem witness_r116_excludes_the_last_sentence_of_r118 :
    ∃ t u, exec (.drw 0 1 1) (store 0x300 [0x80] (startLit.setI 0x300)) = .next t ∧ exec (.drw 0 1 1) t = .next u ∧
      DrawnByR116 (store 0x300 [0x80] (startLit.setI 0x300)) t ∧ DrawnByR116 t u := by
  refine ⟨_, _, rfl, rfl, ⟨?_, ?_, rfl, rfl, rfl, rfl⟩, ⟨?_, ?_, rfl, rfl, rfl, rfl⟩⟩
  · intro r c h
    obtain ⟨rfl, rfl⟩ := (one_pixel_lands _ rfl rfl rfl rfl r c).1 h
    decide
  · exact ⟨fun _ => ⟨0, 0, (one_pixel_lands _ rfl rfl rfl rfl 0 0).2 ⟨rfl, rfl⟩, by decide⟩, fun _ => by decide⟩
  · intro r c h
    obtain ⟨rfl, rfl⟩ := (one_pixel_lands _ rfl rfl rfl rfl r c).1 h
    decide
  · refine ⟨fun h => absurd h (by decide), fun ⟨r, c, h, hp⟩ => ?_⟩
    obtain ⟨rfl, rfl⟩ := (one_pixel_lands _ rfl rfl rfl rfl r c).1 h
    exact absurd hp (by decide)

/-- Both clauses: a sprite with set bits on a clear plane, drawn again in the state the first draw left but for PC. -/
theorem witness_SecondDrawReportsTheSpriteOnClearPixels :
    (0 : Reg) ≠ 15 ∧ (1 : Reg) ≠ 15 ∧ Drawable start 0 1 5 ∧
    (∃ t v, exec (.drw 0 1 5) start = .next t ∧ exec (.drw 0 1 5) (t.setPc 0x300) = .next v ∧ v.reg 15 = 1) ∧
    (∀ r c, SpriteLands start 0 1 5 r c → pixel start.fb r c = false) ∧ SpriteBit start 5 0 0 :=
  ⟨by decide, by decide, ⟨.inr (by decide), fun h => (nomatch h)⟩, ⟨_, _, rfl, rfl, by decide⟩,
    fun r c _ => pixel_clearPlane r c, ⟨by decide, by decide, by decide⟩⟩

theorem witness_TimerTransfersCopy :
    (nnField 0xF007).toNat = 0x07 ∧ (nnField 0xFF15).toNat = 0x15 ∧ (nnField 0xF318).toNat = 0x18 ∧ opField 0xF318 = 0xF := by
  decide

/-- The last value that names a key and the first that names none. -/
theorem witness_KeySkipsTestTheLatch :
    opField 0xE19E = 0xE ∧ (nnField 0xE19E).toNat = 0x9E ∧ (nnField 0xE1A1).toNat = 0xA1 ∧
    ((withRegs [(1, 15)]).reg 1).toNat = (15 : Key).val ∧ 15 < ((withRegs [(1, 16)]).reg 1).toNat ∧
    start.keyDown 15 = false ∧ State.keyDown { start with keys := start.keys.set 15 true } 15 = true := by decide

end Sys2Proof.Tests
end

section
/-! The parameters along a step (R2): no agent's step changes them. -/

namespace Sys2Proof.Machine

@[simp] theorem keyStep_params (k : Key) (e : KeyEdge) (s : State) : (keyStep k e s).params = s.params := by
  cases e <;> rfl

@[simp] theorem resumeWith_params (x : Reg) (k : Key) (s : State) : (resumeWith x k s).params = s.params := rfl

@[simp] theorem resumeWait_params (x : Reg) (pressed : List Key) (s : State) :
    (resumeWait x pressed s).params = s.params := by
  unfold resumeWait
  split
  · rfl
  · rw [resumeWith_params]

theorem exec_keeps_params {i : Instr} {s t : State} (h : exec i s = .next t) : t.params = s.params := by
  obtain ⟨r, rfl⟩ | ⟨hparams, -⟩ := exec_outcomes i s t h
  · exact State.haltAt_params s s.instrAddr r
  · exact hparams

theorem executeWord_keeps_params {w : Word} {s t : State} (h : executeWord w s = .next t) : t.params = s.params := by
  unfold executeWord at h
  split at h
  · exact exec_keeps_params h
  · cases h
    rfl

theorem fetchStep_keeps_params {s t : State} (h : fetchStep s = .next t) : t.params = s.params := by
  unfold fetchStep at h
  split at h
  · cases h
    exact State.haltAt_params _ _ _
  · exact (executeWord_keeps_params h).trans (advance_params s)

theorem interpreterStep_keeps_params {s t : State} (h : interpreterStep s = .next t) : t.params = s.params := by
  unfold interpreterStep at h
  split at h
  · exact fetchStep_keeps_params h
  · exact fetchStep_keeps_params h
  · cases h
    exact resumeWait_params _ _ s
  · cases h

/-- Settles O19: by cases on the agent whose turn it is; giving the turn away leaves the parameters as they are. -/
theorem stepsNeverChangeParameters : Obligations.StepsNeverChangeParameters := by
  unfold Obligations.StepsNeverChangeParameters
  intro s t h
  obtain ⟨-, rest, ⟨-, hstep⟩ | rfl | ⟨k, e, rfl⟩ | rfl⟩ := step_cases h
  case inl =>
    have hkeep := interpreterStep_keeps_params hstep
    exact hkeep
  case inr.inl => exact tickStep_params _
  case inr.inr.inl => exact keyStep_params k e _
  case inr.inr.inr => exact stopStep_params _

end Sys2Proof.Machine
end

section
/-! Each agent's step keeps the invariant of the machine (R15, R20, R21, R30). -/

namespace Sys2Proof.Machine

/-! ### The keys of a wait stay a set (R20, R152) -/

/-- A list of keys is ascending iff its head is below every later key and the rest is ascending. -/
theorem keysAscending_cons (k : Key) (ks : List Key) :
    keysAscending (k :: ks) = true ↔ (∀ q ∈ ks, k < q) ∧ keysAscending ks = true := by
  induction ks generalizing k with
  | nil => simp [keysAscending]
  | cons a ks ih =>
    rw [keysAscending, Bool.and_eq_true, decide_eq_true_eq, List.forall_mem_cons]
    constructor
    · rintro ⟨hka, hrest⟩
      exact ⟨⟨hka, fun q hq => Fin.lt_trans hka (((ih a).mp hrest).1 q hq)⟩, hrest⟩
    · rintro ⟨⟨hka, -⟩, hrest⟩
      exact ⟨hka, hrest⟩

theorem keysAscending_insertKey (k : Key) {ks : List Key} (h : keysAscending ks = true) :
    keysAscending (insertKey k ks) = true := by
  induction ks with
  | nil => rfl
  | cons a ks ih =>
    obtain ⟨ha, hks⟩ := (keysAscending_cons a ks).mp h
    unfold insertKey
    split
    · next hlt =>
      have hall : ∀ q ∈ a :: ks, k < q :=
        List.forall_mem_cons.mpr ⟨hlt, fun q hq => Fin.lt_trans hlt (ha q hq)⟩
      exact (keysAscending_cons k _).mpr ⟨hall, h⟩
    · next hnlt =>
      split
      · exact h
      · next hne =>
        have hval : k.val ≠ a.val := fun e => hne (Fin.ext e)
        have hak : a < k := Nat.lt_of_le_of_ne (Nat.not_lt.mp hnlt) (Ne.symm hval)
        have hall : ∀ q ∈ insertKey k ks, a < q := by
          intro q hq
          obtain rfl | hq := (mem_insertKey k q ks).mp hq
          · exact hak
          · exact ha q hq
        exact (keysAscending_cons a _).mpr ⟨hall, ih hks⟩

theorem notePress_waitOk (k : Key) {st : Status} (h : st.waitOk = true) : (notePress k st).waitOk = true := by
  cases st with
  | waiting x pressed => exact keysAscending_insertKey k h
  | _ => rfl

theorem notePress_ne_halted (k : Key) {st : Status} {e : Halt} (h : st ≠ .halted e) : notePress k st ≠ .halted e := by
  cases st with
  | halted e' => exact h
  | _ => exact nofun

/-! ### The stack stays within its capacity (R15) -/

theorem State.stackOk_iff (s : State) : s.stackOk = true ↔ ∀ c, s.params.stackCapacity = some c → s.sp ≤ c := by
  unfold State.stackOk
  split <;> simp_all

/-! ### What the invariant says of a live state (R21, R153) -/

theorem State.status_ne_halted_of_live {s : State} (h : s.live = true) (e : Halt) : s.status ≠ .halted e := by
  intro hs
  simp [State.live, hs] at h

theorem State.Inv.stop_eq_false {s : State} (hi : s.Inv) (hl : s.live = true) : s.stop = false :=
  Bool.eq_false_iff.mpr fun hs => State.status_ne_halted_of_live hl .quit (hi.stopQuit.mp hs)

/-- A clear stop signal goes with every status but Halted(Quit). -/
theorem State.stopQuit_of_ne_quit {s : State} (h0 : s.stop = false) (hq : s.status ≠ .halted .quit) :
    s.stop = true ↔ s.status = .halted .quit := by
  simp [h0, hq]

/-- The invariant does not speak of the turns to come. -/
theorem State.Inv.setSchedule {s : State} (h : s.Inv) (rest : List Turn) : State.Inv { s with schedule := rest } :=
  ⟨h.memory, h.wait, h.stackBound, h.stopQuit⟩

/-- Fault entry keeps the invariant (R143). -/
theorem State.Inv.haltAt {s : State} (hi : s.Inv) (hl : s.live = true) (a : Word) (r : Fatal) : (s.haltAt a r).Inv where
  memory := hi.memory
  wait := rfl
  stackBound := hi.stackBound
  stopQuit := State.stopQuit_of_ne_quit (hi.stop_eq_false hl) (by simp)

/-! ### The interpreter's step -/

theorem exec_keeps_inv {i : Instr} {s t : State} (hi : s.Inv) (hl : s.live = true) (h : exec i s = .next t) : t.Inv := by
  obtain ⟨r, rfl⟩ | ⟨hparams, -, hstop, -, hstatus, hmem, hstack⟩ := exec_outcomes i s t h
  · exact hi.haltAt hl _ r
  have hbound := (State.stackOk_iff s).mp hi.stackBound
  refine ⟨?memory, ?wait, (State.stackOk_iff t).mpr fun c hc => ?stack, ?stop⟩
  case memory =>
    obtain e | ⟨a, xs, e⟩ := hmem
    · exact e ▸ hi.memory
    · exact e ▸ Memory.wf_writeList hi.memory a xs
  case wait =>
    obtain e | ⟨x, e⟩ := hstatus
    · exact e ▸ hi.wait
    · rw [e]; rfl
  case stack =>
    rw [hparams] at hc
    have hle := hbound c hc
    unfold State.sp at hle ⊢
    obtain e | e | ⟨e, hroom⟩ := hstack
    · rwa [e]
    · rw [e, List.length_dropLast]
      omega
    · have hne : s.stack.length ≠ c := fun e => hroom (by rw [hc, ← e]; rfl)
      rw [e, List.length_append, List.length_singleton]
      omega
  case stop =>
    refine State.stopQuit_of_ne_quit (hstop.trans (hi.stop_eq_false hl)) ?_
    obtain e | ⟨x, e⟩ := hstatus
    · exact e ▸ State.status_ne_halted_of_live hl .quit
    · simp [e]

theorem advance_keeps_inv {s : State} (hi : s.Inv) (hl : s.live = true) : (advance s).Inv where
  memory := hi.memory
  wait := rfl
  stackBound := hi.stackBound
  stopQuit := State.stopQuit_of_ne_quit (hi.stop_eq_false hl) (by simp)

theorem fetchStep_keeps_inv {s t : State} (hi : s.Inv) (hl : s.live = true) (h : fetchStep s = .next t) : t.Inv := by
  unfold fetchStep executeWord at h
  split at h
  · cases h
    exact hi.haltAt hl _ _
  · split at h
    · exact exec_keeps_inv (advance_keeps_inv hi hl) rfl h
    · cases h
      exact advance_keeps_inv hi hl

theorem resumeWait_keeps_inv {s : State} (hi : s.Inv) (hl : s.live = true) (x : Reg) (pressed : List Key) :
    (resumeWait x pressed s).Inv := by
  unfold resumeWait
  split
  · exact hi
  · exact ⟨hi.memory, rfl, hi.stackBound, State.stopQuit_of_ne_quit (hi.stop_eq_false hl) (by simp [resumeWith])⟩

theorem interpreterStep_keeps_inv {s t : State} (hi : s.Inv) (hl : s.live = true) (h : interpreterStep s = .next t) :
    t.Inv := by
  unfold interpreterStep at h
  split at h
  · exact fetchStep_keeps_inv hi hl h
  · exact fetchStep_keeps_inv hi hl h
  · cases h
    exact resumeWait_keeps_inv hi hl _ _
  · cases h

/-! ### The steps of the other agents -/

theorem tickStep_keeps_inv {s : State} (hi : s.Inv) : (tickStep s).Inv :=
  ⟨hi.memory, hi.wait, hi.stackBound, hi.stopQuit⟩

theorem stopStep_keeps_inv {s : State} (hi : s.Inv) : (stopStep s).Inv :=
  ⟨hi.memory, rfl, hi.stackBound, by simp⟩

theorem keyStep_keeps_inv {s : State} (hi : s.Inv) (hl : s.live = true) (k : Key) (e : KeyEdge) : (keyStep k e s).Inv := by
  have hq := State.status_ne_halted_of_live hl .quit
  cases e with
  | released => exact ⟨hi.memory, hi.wait, hi.stackBound, hi.stopQuit⟩
  | pressed =>
    refine ⟨hi.memory, ?wait, hi.stackBound, State.stopQuit_of_ne_quit (hi.stop_eq_false hl) ?status⟩ <;>
      simp only [keyStep] <;> split
    case wait.isTrue => exact hi.wait
    case wait.isFalse => exact notePress_waitOk k hi.wait
    case status.isTrue => exact hq
    case status.isFalse => exact notePress_ne_halted k hq

/-- Settles O16: by cases on the agent whose turn it is; a step starts from a live state, in which the stop signal is clear. -/
theorem everyStepKeepsTheInvariant : Obligations.EveryStepKeepsTheInvariant := by
  unfold Obligations.EveryStepKeepsTheInvariant
  intro s t hinv h
  obtain ⟨hl, rest, hturn⟩ := step_cases h
  have hi := hinv.setSchedule rest
  obtain ⟨-, hstep⟩ | rfl | ⟨k, e, rfl⟩ | rfl := hturn
  case inl => exact interpreterStep_keeps_inv hi hl hstep
  case inr.inl => exact tickStep_keeps_inv hi
  case inr.inr.inl => exact keyStep_keeps_inv hi hl k e
  case inr.inr.inr => exact stopStep_keeps_inv hi

/-- Settles O17: memory and stack are empty, and no status but Loaded is set. -/
theorem resetMeetsTheInvariant : Obligations.ResetMeetsTheInvariant where
  memory := Memory.wf_nil
  wait := rfl
  stackBound := rfl
  stopQuit := State.stopQuit_of_ne_quit rfl (by simp [State.reset])

end Sys2Proof.Machine
end

section
/-! What each instruction can write: the column "written by" of R23, said once and read off for each piece of state. -/

namespace Sys2Proof.Machine

/-- The updates an instruction that raises no fatal condition can make, values left open where no statement of R23 needs them. -/
def Instr.CanYield (i : Instr) (s t : State) : Prop :=
  match i with
  | .sys _ => t = s
  | .cls => ∃ fb, t = State.strobe { s with fb := fb }
  | .ret => ∃ l w, t = State.setPc { s with stack := l } w
  | .jp _ | .jpV0 _ => ∃ w, t = s.setPc w
  | .call _ => ∃ w, t = (s.push s.pc).setPc w
  | .seImm _ _ | .sneImm _ _ | .seReg _ _ | .sneReg _ _ | .skp _ | .sknp _ => ∃ c, t = s.skipIf c
  | .ldImm x _ | .addImm x _ | .ldReg x _ | .orReg x _ | .andReg x _ | .xorReg x _ | .ldVxDT x => ∃ b, t = s.setReg x b
  | .addReg x _ | .subReg x _ | .shr x _ | .subn x _ | .shl x _ => ∃ b c, t = s.setRegFlag x b (flagOf c)
  | .rnd x _ => ∃ b n, t = { s.setReg x b with draws := n }
  | .ldI _ | .addI _ | .ldF _ => ∃ w, t = s.setI w
  | .drw _ _ _ => ∃ fb c, t = (State.setReg { s with fb := fb } flagReg (flagOf c)).strobe
  | .ldVxK x => t = { s with status := .waiting x [] }
  | .ldDTVx _ => ∃ b, t = s.setDT b
  | .ldSTVx _ => ∃ b, t = s.setST b
  | .ldB _ => ∃ m, t = { s with mem := m }
  | .storeRegs x => ∃ m, t = { s with mem := m, i := indexAfter s x }
  | .loadRegs x => ∃ bs, bs.length = x.val + 1 ∧ t = (s.setRegs 0 bs).setI (indexAfter s x)

/-- An instruction raises a fatal condition, or makes one of its updates. -/
theorem exec_canYield {i : Instr} {s t : State} (h : exec i s = .next t) :
    (∃ r, t = s.haltAt s.instrAddr r) ∨ Instr.CanYield i s t := by
  cases i <;> simp only [exec] at h
  case ret =>
    unfold execRet at h
    split at h
    · cases h; exact .inl ⟨_, rfl⟩
    · next hp =>
      obtain ⟨-, hs⟩ := State.pop_eq_some _ _ _ hp
      cases h
      exact .inr ⟨_, _, congrArg (State.setPc · _) hs⟩
  case call =>
    unfold execCall at h
    split at h <;> cases h
    · exact .inl ⟨_, rfl⟩
    · exact .inr ⟨_, rfl⟩
  case drw =>
    unfold execDrw at h
    split at h
    · cases h; exact .inl ⟨_, rfl⟩
    · split at h <;> cases h
      · exact .inl ⟨_, rfl⟩
      · exact .inr ⟨_, _, rfl⟩
  case skp =>
    unfold execSkp at h
    split at h <;> cases h
    · exact .inl ⟨_, rfl⟩
    · exact .inr ⟨_, rfl⟩
  case sknp =>
    unfold execSknp at h
    split at h <;> cases h
    · exact .inl ⟨_, rfl⟩
    · exact .inr ⟨_, rfl⟩
  case ldB =>
    unfold execLdB at h
    split at h <;> cases h
    · exact .inl ⟨_, rfl⟩
    · exact .inr ⟨_, rfl⟩
  case storeRegs =>
    unfold execStoreRegs at h
    split at h <;> cases h
    · exact .inl ⟨_, rfl⟩
    · exact .inr ⟨_, rfl⟩
  case loadRegs =>
    unfold execLoadRegs at h
    split at h <;> cases h
    · exact .inl ⟨_, rfl⟩
    · exact .inr ⟨_, Memory.length_readList _ _ _, rfl⟩
  all_goals
    cases h
    right
  case sys | ldVxK => exact rfl
  case addReg | subReg | shr | subn | shl | rnd => exact ⟨_, _, rfl⟩
  all_goals exact ⟨_, rfl⟩

/-- I stays over a register dump or load unless `P_LOADSTORE_INC_I` (R104, R105). -/
theorem loadStoreIncI_of_indexAfter_ne {s : State} {x : Reg} (h : indexAfter s x ≠ s.i) : s.params.loadStoreIncI = true := by
  unfold indexAfter at h
  split at h
  · assumption
  · exact absurd rfl h

/-- Settles O20: a fatal condition changes only the status; each other outcome is read off `Instr.CanYield`. -/
theorem onlyTheNamedInstructionsWriteEachStateButV : Obligations.OnlyTheNamedInstructionsWriteEachStateButV := by
  unfold Obligations.OnlyTheNamedInstructionsWriteEachStateButV
  intro i s t h
  obtain ⟨r, rfl⟩ | hy := exec_canYield h
  · simp
  cases i
  case sys | ldVxK => cases hy; simp
  case ret | addReg | subReg | shr | subn | shl | rnd | drw => obtain ⟨_, _, rfl⟩ := hy; simp
  case storeRegs =>
    obtain ⟨_, rfl⟩ := hy
    simpa using loadStoreIncI_of_indexAfter_ne
  case loadRegs =>
    obtain ⟨_, -, rfl⟩ := hy
    simpa using loadStoreIncI_of_indexAfter_ne
  all_goals obtain ⟨_, rfl⟩ := hy; simp

/-! ### V0..VF and the flag -/

theorem State.eq_of_reg_setReg_ne {s : State} {x r : Reg} {b : Byte} (h : (s.setReg x b).reg r ≠ s.reg r) : r = x :=
  Decidable.not_imp_comm.mp (State.reg_setReg_other s b) h

theorem State.eq_or_eq_of_reg_setRegFlag_ne {s : State} {x r : Reg} {b f : Byte}
    (h : (s.setRegFlag x b f).reg r ≠ s.reg r) : r = x ∨ r = flagReg := by
  refine Decidable.byContradiction fun hn => ?_
  obtain ⟨hx, hf⟩ := not_or.mp hn
  exact h (State.reg_setRegFlag_other s b f hx hf)

theorem State.le_of_reg_setRegs_ne {s : State} {x r : Reg} {bs : List Byte} (hlen : bs.length = x.val + 1)
    (h : (s.setRegs 0 bs).reg r ≠ s.reg r) : r.val ≤ x.val := by
  refine Decidable.byContradiction fun hlt => ?_
  have := x.isLt
  exact h (State.reg_setRegs_outside s 0 bs r (by omega) (by omega))

/-- Settles O21: a fatal condition changes only the status; each other outcome is read off `Instr.CanYield`. -/
theorem onlyTheNamedInstructionsWriteV0ToVF : Obligations.OnlyTheNamedInstructionsWriteV0ToVF := by
  unfold Obligations.OnlyTheNamedInstructionsWriteV0ToVF
  intro i s t r h hr
  obtain ⟨_, rfl⟩ | hy := exec_canYield h
  · exact absurd rfl hr
  cases i
  case ldImm | addImm | ldReg | orReg | andReg | xorReg | ldVxDT =>
    obtain ⟨b, rfl⟩ := hy
    obtain rfl := State.eq_of_reg_setReg_ne hr
    simp
  case rnd =>
    obtain ⟨b, n, rfl⟩ := hy
    obtain rfl := State.eq_of_reg_setReg_ne hr
    simp
  case addReg | subReg | shr | subn | shl =>
    obtain ⟨b, c, rfl⟩ := hy
    obtain rfl | rfl := State.eq_or_eq_of_reg_setRegFlag_ne hr <;> simp [flagReg]
  case drw =>
    obtain ⟨fb, c, rfl⟩ := hy
    have hvf : r = flagReg := State.eq_of_reg_setReg_ne hr
    simp [hvf, flagReg]
  case loadRegs =>
    obtain ⟨bs, hlen, rfl⟩ := hy
    exact .inr (.inr (.inr (.inl ⟨_, rfl, State.le_of_reg_setRegs_ne hlen hr⟩)))
  case sys | ldVxK => cases hy; exact absurd rfl hr
  case ret => obtain ⟨_, _, rfl⟩ := hy; exact absurd rfl hr
  case seImm | sneImm | seReg | sneReg | skp | sknp => obtain ⟨c, rfl⟩ := hy; exact absurd (State.skipIf_reg s c r) hr
  all_goals obtain ⟨_, rfl⟩ := hy; exact absurd rfl hr

theorem flagOf_eq_zero_or_one (c : Bool) : flagOf c = 0 ∨ flagOf c = 1 := by cases c <;> simp

/-- A flag is 0 or 1 (R80, R116); the flag of an instruction that raises a fatal condition is not written. -/
theorem vf_zero_or_one_of_flagWriter {i : Instr} {s t : State}
    (hi : (∃ x y, i = .addReg x y ∨ i = .subReg x y ∨ i = .subn x y ∨ i = .shr x y ∨ i = .shl x y) ∨
      ∃ x y n, i = .drw x y n)
    (h : exec i s = .next t) (hr : t.reg 15 ≠ s.reg 15) : t.reg 15 = 0 ∨ t.reg 15 = 1 := by
  obtain ⟨_, rfl⟩ | hy := exec_canYield h
  · exact absurd rfl hr
  obtain ⟨x, y, hi⟩ | ⟨x, y, n, rfl⟩ := hi
  · have hflag : ∃ b c, t = s.setRegFlag x b (flagOf c) := by
      obtain rfl | rfl | rfl | rfl | rfl := hi <;> exact hy
    obtain ⟨b, c, rfl⟩ := hflag
    exact (State.reg_setRegFlag_flag s x b (flagOf c)).symm ▸ flagOf_eq_zero_or_one c
  · obtain ⟨fb, c, rfl⟩ := hy
    exact (State.reg_setReg_same _ flagReg (flagOf c)).symm ▸ flagOf_eq_zero_or_one c

/-- Settles O22: O21 at VF, with the value of the flag for the instructions that write one. -/
theorem onlyFlagWritersAndDestinationsChangeVF : Obligations.OnlyFlagWritersAndDestinationsChangeVF := by
  unfold Obligations.OnlyFlagWritersAndDestinationsChangeVF
  intro i s t h hr
  have hflag := fun hi => And.intro hi (vf_zero_or_one_of_flagWriter hi h hr)
  obtain himm | ⟨y, hy⟩ | hdt | ⟨x, hload, hx⟩ | ⟨-, hi⟩ := onlyTheNamedInstructionsWriteV0ToVF i s t 15 h hr
  case inl => exact .inr (.inl himm)
  case inr.inl =>
    obtain hy | hy | hy | hy | hy := hy
    case inr.inr.inr.inr => exact .inl (hflag (.inl ⟨15, y, hy⟩))
    all_goals exact .inr (.inr (.inl ⟨y, by simp [hy]⟩))
  case inr.inr.inl => exact .inr (.inr (.inr (.inl hdt)))
  case inr.inr.inr.inl =>
    have hx15 : x = 15 := by
      have := x.isLt
      have : 15 ≤ x.val := hx
      exact Fin.ext (by omega : x.val = 15)
    exact .inr (.inr (.inr (.inr (hx15 ▸ hload))))
  case inr.inr.inr.inr => exact .inl (hflag hi)

end Sys2Proof.Machine
end

section
/-! No instruction reads the sound timer (R17, R23): `exec` and a change of ST commute, but for the instruction that sets ST. -/

namespace Sys2Proof.Machine

theorem State.pop_setST (s : State) (b : Byte) : (s.setST b).pop = s.pop.map fun p => (p.1, p.2.setST b) := by
  obtain hs | ⟨l, w, hs⟩ := List.eq_nil_or_concat s.stack
  · simp [State.pop, hs]
  · rw [List.concat_eq_append] at hs
    rw [State.pop_concat s hs, State.pop_concat (s.setST b) hs]
    rfl

theorem State.sp_setST (s : State) (b : Byte) : (s.setST b).sp = s.sp := rfl
theorem State.iAddr_setST (s : State) (b : Byte) : (s.setST b).iAddr = s.iAddr := rfl
theorem State.keyDown_setST (s : State) (b : Byte) (k : Key) : (s.setST b).keyDown k = s.keyDown k := rfl
theorem drwPixels_setST (s : State) (b : Byte) (x y : Reg) (n : Fin 16) :
    drwPixels x y n (s.setST b) = drwPixels x y n s := rfl

theorem State.skipIf_setST (s : State) (b : Byte) (c : Bool) : (s.setST b).skipIf c = (s.skipIf c).setST b := by
  cases c <;> rfl

theorem State.setRegs_setST (s : State) (b : Byte) (k : Nat) (bs : List Byte) :
    (s.setST b).setRegs k bs = (s.setRegs k bs).setST b := by
  induction bs generalizing s k with
  | nil => rfl
  | cons c bs ih => exact ih (s.setReg (Fin.ofNat 16 k) c) (k + 1)

/-- Every instruction but LD ST, Vx does after a change of ST what it does before it: its checks do not see ST. -/
theorem exec_setST {i : Instr} {s t : State} (hi : ∀ x, i ≠ .ldSTVx x) (h : exec i s = .next t) (b : Byte) :
    exec i (s.setST b) = .next (t.setST b) := by
  cases i <;> simp only [exec] at h ⊢
  case ldSTVx x => exact absurd rfl (hi x)
  case ret => cases hp : s.pop <;> simp only [execRet, State.pop_setST, hp] at h ⊢ <;> cases h <;> rfl
  case call nnn =>
    by_cases hfull : s.params.stackCapacity = some s.sp <;>
      simp only [execCall, State.setST_params, State.sp_setST, hfull, if_true, if_false] at h ⊢ <;> cases h <;> rfl
  case drw x y n =>
    cases hb : firstBad s.iAddr n.val <;> simp only [execDrw, State.iAddr_setST, hb] at h ⊢
    case some => cases h; rfl
    case none =>
      cases ho : offScreen s.params.drawCoord (drwPixels x y n s) <;>
        simp only [State.setST_params, drwPixels_setST, ho] at h ⊢ <;> cases h <;> rfl
  case skp x | sknp x =>
    cases hk : keyIndex (s.reg x) <;>
      simp only [execSkp, execSknp, State.setST_reg, State.keyDown_setST, State.skipIf_setST, hk] at h ⊢ <;> cases h <;> rfl
  case seImm | sneImm | seReg | sneReg => cases h; exact congrArg _ (State.skipIf_setST s b _)
  case ldB => cases hb : firstBad s.iAddr 3 <;> simp only [execLdB, State.iAddr_setST, hb] at h ⊢ <;> cases h <;> rfl
  case storeRegs x | loadRegs x =>
    cases hb : firstBad s.iAddr (x.val + 1) <;>
      simp only [execStoreRegs, execLoadRegs, State.iAddr_setST, State.setRegs_setST, hb] at h ⊢ <;> cases h <;> rfl
  all_goals cases h; rfl

/-- Settles O28: ST keeps its value, or LD ST, Vx sets it from a register in both runs. -/
theorem noInstructionReadsTheSoundTimer : Obligations.NoInstructionReadsTheSoundTimer := by
  unfold Obligations.NoInstructionReadsTheSoundTimer
  intro i s t b h
  by_cases hst : ∃ x, i = .ldSTVx x
  · obtain ⟨x, rfl⟩ := hst
    cases h
    exact ⟨s.reg x, rfl⟩
  · exact ⟨b, exec_setST (not_exists.mp hst) h b⟩

end Sys2Proof.Machine
end

section
/-! What reset leaves (R24, R34, R35). -/

namespace Sys2Proof.Machine

theorem defaultFont_getElem (a : Nat) (h : a < 80) : defaultFont[a] = unlistedByte a := by
  have hlen : a < fontBytes.length := h
  rw [unlistedByte, List.getD_eq_getElem?_getD, List.getElem?_eq_getElem hlen]
  rfl

theorem unlistedByte_eq_zero {a : Nat} (h : 80 ≤ a) : unlistedByte a = 0 := by
  have hlen : fontBytes.length ≤ a := h
  simp [unlistedByte, hlen]

/-- Settles O29: V0..VF and KEY are replicated zeros, the plane is clear, and empty memory reads as font and zero fill. -/
theorem resetValues : Obligations.ResetValues := by
  unfold Obligations.ResetValues
  refine ⟨fun x => ?_, rfl, rfl, rfl, rfl, rfl, fun r c => pixel_clearPlane r c, fun k => ?_, rfl, rfl,
    fun a h => (defaultFont_getElem a h).symm, fun a h => unlistedByte_eq_zero h⟩
  · simp [State.reg, State.reset]
  · simp [State.keyDown, State.reset]

end Sys2Proof.Machine
end

section
/-! Memory (20_memory.md): what a sequence of writes leaves to read (R39), the canonical form is determined by its bytes, and what a
register dump stores is what the next fetch reads (R36, R42). -/

namespace Sys2Proof.Machine

/-! ### Reads after writes -/

/-- Settles O32, by induction on the writes: a later write to `a` decides the read, else the first one does if it is to `a`. -/
theorem readReturnsTheMostRecentWrite : Obligations.ReadReturnsTheMostRecentWrite := by
  unfold Obligations.ReadReturnsTheMostRecentWrite
  intro m ws hws a
  induction ws generalizing m with
  | nil => rfl
  | cons w ws ih =>
    have hw : w.1 < memorySize := hws w List.mem_cons_self
    have hrest := ih (m.write w.1 w.2) fun w' hw' => hws w' (List.mem_cons_of_mem w hw')
    rw [List.foldl_cons, hrest, List.reverse_cons, List.find?_append]
    cases ws.reverse.find? (fun w => w.1 == a) with
    | some _ => rfl
    | none =>
      rw [Option.none_or, List.find?_singleton]
      by_cases ha : w.1 = a
      · rw [if_pos (beq_iff_eq.mpr ha), ← ha]
        exact Memory.read_write_same m hw w.2
      · rw [if_neg (mt beq_iff_eq.mp ha)]
        exact Memory.read_write_other m w.2 (Ne.symm ha)

/-! ### The canonical form is determined by its bytes -/

theorem Memory.wfFrom_cons {lo a : Nat} {x : Byte} {m : Memory} :
    Memory.wfFrom lo ((a, x) :: m) = true ↔
      lo ≤ a ∧ a < memorySize ∧ x ≠ unlistedByte a ∧ Memory.wfFrom (a + 1) m = true := by
  simp [Memory.wfFrom, and_assoc]

theorem Memory.read_cons_same (a : Nat) (x : Byte) (m : Memory) : Memory.read ((a, x) :: m) a = x := if_pos rfl

theorem Memory.read_cons_other {a b : Nat} (x : Byte) (m : Memory) (h : b ≠ a) : Memory.read ((a, x) :: m) b = m.read b :=
  if_neg (Ne.symm h)

/-- A canonical memory lists its first cell for a reason: the byte there is not the reset contents. -/
theorem Memory.read_head_ne_unlisted {lo a : Nat} {x : Byte} {m : Memory} (h : Memory.wfFrom lo ((a, x) :: m) = true) :
    Memory.read ((a, x) :: m) a ≠ unlistedByte a := by
  obtain ⟨-, -, hx, -⟩ := Memory.wfFrom_cons.mp h
  rwa [Memory.read_cons_same]

/-- Of two canonical memories with equal bytes the second does not begin above the first: it would read as unlisted there. -/
theorem Memory.head_le_of_read_eq {lo lo' a b : Nat} {x y : Byte} {m m' : Memory}
    (h : Memory.wfFrom lo ((a, x) :: m) = true) (h' : Memory.wfFrom lo' ((b, y) :: m') = true)
    (heq : ∀ c, Memory.read ((a, x) :: m) c = Memory.read ((b, y) :: m') c) : b ≤ a := by
  refine Nat.le_of_not_lt fun hlt => ?_
  obtain ⟨-, hb, hy, hm'⟩ := Memory.wfFrom_cons.mp h'
  have hfrom : Memory.wfFrom b ((b, y) :: m') = true := Memory.wfFrom_cons.mpr ⟨Nat.le_refl b, hb, hy, hm'⟩
  exact Memory.read_head_ne_unlisted h ((heq a).trans (Memory.read_below hfrom hlt))

/-- The cells after the first read alike when all cells do: at the first address, and there only, both lists are past it. -/
theorem Memory.read_tail_eq {a : Nat} {x y : Byte} {m m' : Memory} (hm : Memory.wfFrom (a + 1) m = true)
    (hm' : Memory.wfFrom (a + 1) m' = true) (heq : ∀ c, Memory.read ((a, x) :: m) c = Memory.read ((a, y) :: m') c)
    (c : Nat) : m.read c = m'.read c := by
  by_cases hc : c = a
  · subst hc
    rw [Memory.read_below hm (Nat.lt_succ_self c), Memory.read_below hm' (Nat.lt_succ_self c)]
  · rw [← Memory.read_cons_other x m hc, heq c, Memory.read_cons_other y m' hc]

theorem Memory.eq_of_read_eq {lo : Nat} {m m' : Memory} (h : Memory.wfFrom lo m = true) (h' : Memory.wfFrom lo m' = true)
    (heq : ∀ a, m.read a = m'.read a) : m = m' := by
  induction m generalizing lo m' with
  | nil =>
    cases m' with
    | nil => rfl
    | cons c' m' => exact absurd (heq c'.1).symm (Memory.read_head_ne_unlisted h')
  | cons c m ih =>
    cases m' with
    | nil => exact absurd (heq c.1) (Memory.read_head_ne_unlisted h)
    | cons c' m' =>
      obtain ⟨a, x⟩ := c
      obtain ⟨b, y⟩ := c'
      obtain rfl : a = b :=
        Nat.le_antisymm (Memory.head_le_of_read_eq h' h fun c => (heq c).symm) (Memory.head_le_of_read_eq h h' heq)
      have hxy : x = y := by simpa only [Memory.read_cons_same] using heq a
      obtain ⟨-, -, -, hm⟩ := Memory.wfFrom_cons.mp h
      obtain ⟨-, -, -, hm'⟩ := Memory.wfFrom_cons.mp h'
      rw [hxy, ih hm hm' (Memory.read_tail_eq hm hm' heq)]

/-- Settles O33: the canonical form is the one from address 0 on. -/
theorem canonicalMemoriesWithEqualBytesAreEqual : Obligations.CanonicalMemoriesWithEqualBytesAreEqual := by
  unfold Obligations.CanonicalMemoriesWithEqualBytesAreEqual
  exact fun _ _ h h' heq => Memory.eq_of_read_eq h h' heq

/-! ### A register dump and the next fetch -/

/-- A dump within 0x000..0xFFF passes the address check and writes V0..Vx (R33, R104). -/
theorem exec_storeRegs_of_le {s : State} {x : Reg} (h : s.i.toNat + x.val ≤ 0xFFF) :
    exec (.storeRegs x) s =
      .next { s with mem := s.mem.writeList s.i.toNat (s.regsUpTo x), i := indexAfter s x } := by
  have hok : firstBad s.iAddr (x.val + 1) = none := firstBad_eq_none.mpr (.inr (Nat.succ_le_succ h))
  simp only [exec, execStoreRegs, hok]
  rfl

/-- After V0..Vx are written from `a` on, the byte at `a + k` is V[k] (R104). -/
theorem Memory.read_writeList_regsUpTo (m : Memory) (s : State) {a : Nat} {x : Reg} (h : a + x.val ≤ 0xFFF) {k : Reg}
    (hk : k.val ≤ x.val) : (m.writeList a (s.regsUpTo x)).read (a + k.val) = s.reg k := by
  have hlen : (s.regsUpTo x).length = x.val + 1 := State.length_regsUpTo s x
  have hmem : a + (s.regsUpTo x).length ≤ memorySize := by
    rw [hlen]
    exact Nat.succ_le_succ h
  rw [Memory.read_writeList_inside m a _ k.val (by omega) hmem, State.getElem_regsUpTo]

/-- Settles O34: the two bytes the fetch reads at I and I + 1 are the dumped V0 and V1. -/
theorem storeIsSeenByTheNextFetch : Obligations.StoreIsSeenByTheNextFetch := by
  unfold Obligations.StoreIsSeenByTheNextFetch
  intro s x hx hi
  refine ⟨_, exec_storeRegs_of_le hi, ?_⟩
  have h0 := Memory.read_writeList_regsUpTo s.mem s hi (k := 0) (Nat.zero_le _)
  have h1 := Memory.read_writeList_regsUpTo s.mem s hi (k := 1) hx
  calc fetchedWord _ = wordOfBytes _ _ := rfl
    _ = wordOfBytes (s.reg 0) (s.reg 1) := congr (congrArg wordOfBytes h0) h1
    _ = s.reg 0 ++ s.reg 1 := wordOfBytes_eq_append _ _

end Sys2Proof.Machine
end

section
/-! The encoding (30_encoding.md): an instruction word against its fields, the decoder against the encoder, and the words left
unassigned (R54). -/

namespace Sys2Proof.Machine

/-! ### A word assembled from its own fields (R46) -/

theorem wordNnn_fields {w : Word} {op : Nat} (hop : opField w = op) : wordNnn op (nnnField w) = w := by
  refine BitVec.eq_of_toNat_eq ?_
  have hdigits := word_eq_digits w
  have hnnn := nnnField_eq_digits w
  have := w.isLt
  rw [wordNnn, BitVec.toNat_ofNat]
  omega

theorem wordXnn_fields {w : Word} {op : Nat} {nn : Byte} (hop : opField w = op) (hnn : (nnField w).toNat = nn.toNat) :
    wordXnn op (xField w) nn = w := by
  refine BitVec.eq_of_toNat_eq ?_
  have hdigits := word_eq_digits w
  have hyn := nnField_eq_digits w
  have := w.isLt
  rw [wordXnn, BitVec.toNat_ofNat]
  omega

theorem wordXyn_fields {w : Word} {op : Nat} {n : Fin 16} (hop : opField w = op) (hn : (nField w).val = n.val) :
    wordXyn op (xField w) (yField w) n = w := by
  refine BitVec.eq_of_toNat_eq ?_
  have hdigits := word_eq_digits w
  have := w.isLt
  rw [wordXyn, BitVec.toNat_ofNat]
  omega

/-- The mask 0xFFF0 shifts the low digit out and 0 in. -/
theorem and_FFF0_toNat (w : Word) : (w &&& 0xFFF0).toNat = w.toNat / 16 * 16 := by
  have hmask : (0xFFF0 : Word) = BitVec.allOnes 16 <<< 4 := rfl
  have := w.isLt
  rw [hmask, ← BitVec.shiftLeft_ushiftRight, BitVec.toNat_shiftLeft, BitVec.toNat_ushiftRight, Nat.shiftLeft_eq,
    Nat.shiftRight_eq_div_pow]
  omega

/-- `n` replaced by 0. -/
theorem wordXyn_fields_zero {w : Word} {op : Nat} (hop : opField w = op) :
    wordXyn op (xField w) (yField w) 0 = w &&& 0xFFF0 := by
  refine BitVec.eq_of_toNat_eq ?_
  have hdigits := word_eq_digits w
  have := w.isLt
  have := (nField w).isLt
  rw [wordXyn, and_FFF0_toNat, BitVec.toNat_ofNat, Fin.val_zero]
  omega

theorem wordNnn_injective (op : Nat) : Function.Injective (wordNnn op) :=
  Function.LeftInverse.injective (nnnField_wordNnn op)

/-! ### The word of an instruction decodes to it (R48..R53) -/

theorem sys_wf_iff {nnn : Addr12} : (Instr.sys nnn).WF ↔ nnn ≠ 0x0E0 ∧ nnn ≠ 0x0EE := by
  simp [Instr.WF, Instr.wellFormed]

/-- A SYS word is neither that of CLS nor that of RET (R49). -/
theorem decodeGroup0_wordNnn {nnn : Addr12} (h : (Instr.sys nnn).WF) :
    decodeGroup0 (wordNnn 0 nnn) = .instr (.sys nnn) := by
  obtain ⟨hcls, hret⟩ := sys_wf_iff.mp h
  have hne_cls : wordNnn 0 nnn ≠ 0x00E0 := (wordNnn_injective 0).ne hcls
  have hne_ret : wordNnn 0 nnn ≠ 0x00EE := (wordNnn_injective 0).ne hret
  rw [decodeGroup0, if_neg hne_cls, if_neg hne_ret, nnnField_wordNnn]

/-- By the layout of the instruction's word and the field its group dispatches on. -/
theorem decode_encode {i : Instr} (h : i.WF) : decode (encode i) = .instr i := by
  cases i
  case cls | ret => rfl
  case sys nnn => simp only [encode, decode, opField_wordNnn 0 (by decide), decodeGroup0_wordNnn h]
  case jp | call | ldI | jpV0 => simp [encode, decode, opField_wordNnn]
  case seImm | sneImm | ldImm | addImm | rnd => simp [encode, decode, opField_wordXnn]
  case seReg | sneReg | drw => simp [encode, decode, opField_wordXyn]
  case ldReg | orReg | andReg | xorReg | addReg | subReg | shr | subn | shl =>
    simp only [encode, decode, opField_wordXyn 8 (by decide), decodeGroup8, xField_wordXyn, yField_wordXyn,
      nField_wordXyn] <;> rfl
  case skp | sknp =>
    simp only [encode, decode, opField_wordXnn 0xE (by decide), decodeGroupE, xField_wordXnn, nnField_wordXnn] <;> rfl
  case ldVxDT | ldVxK | ldDTVx | ldSTVx | addI | ldF | ldB | storeRegs | loadRegs =>
    simp only [encode, decode, opField_wordXnn 0xF (by decide), decodeGroupF, xField_wordXnn, nnField_wordXnn] <;> rfl

/-- Settles O1: the two bytes form the encoded word again, and that word decodes to the instruction. -/
theorem decodeOfEncodeIsTheInstruction : Obligations.DecodeOfEncodeIsTheInstruction := by
  unfold Obligations.DecodeOfEncodeIsTheInstruction
  intro i rest h
  simp only [encodeBytes, List.cons_append, List.nil_append, decodeBytes, wordOfBytes_bytes, decode_encode h]

/-! ### The word of a decoded instruction -/

theorem encode_of_decodeGroup0 {w : Word} {i : Instr} (hop : opField w = 0) (h : decodeGroup0 w = .instr i) :
    i.WF ∧ encode i = w := by
  unfold decodeGroup0 at h
  split at h
  · next hcls => cases h; exact ⟨rfl, hcls.symm⟩
  split at h
  · next hret => cases h; exact ⟨rfl, hret.symm⟩
  next hcls hret =>
  cases h
  have hw : wordNnn 0 (nnnField w) = w := wordNnn_fields hop
  have hnnn (k : Addr12) (hk : w ≠ wordNnn 0 k) : nnnField w ≠ k := fun e => hk (e ▸ hw.symm)
  exact ⟨sys_wf_iff.mpr ⟨hnnn 0x0E0 hcls, hnnn 0x0EE hret⟩, hw⟩

theorem encode_of_decodeGroup8 {w : Word} {i : Instr} (hop : opField w = 8) (h : decodeGroup8 w = .instr i) :
    i.WF ∧ encode i = w := by
  unfold decodeGroup8 at h
  dsimp only at h
  split at h <;> cases h
  all_goals exact ⟨rfl, wordXyn_fields hop ‹_›⟩

theorem encode_of_decodeGroupE {w : Word} {i : Instr} (hop : opField w = 0xE) (h : decodeGroupE w = .instr i) :
    i.WF ∧ encode i = w := by
  unfold decodeGroupE at h
  split at h <;> cases h
  all_goals exact ⟨rfl, wordXnn_fields hop ‹_›⟩

theorem encode_of_decodeGroupF {w : Word} {i : Instr} (hop : opField w = 0xF) (h : decodeGroupF w = .instr i) :
    i.WF ∧ encode i = w := by
  unfold decodeGroupF at h
  dsimp only at h
  split at h <;> cases h
  all_goals exact ⟨rfl, wordXnn_fields hop ‹_›⟩

/-- By the arm of `decode`: arm k is group k - 1. -/
theorem encode_of_decode {w : Word} {i : Instr} (h5 : opField w ≠ 5) (h9 : opField w ≠ 9) (h : decode w = .instr i) :
    i.WF ∧ encode i = w := by
  unfold decode at h
  split at h
  case h_1 hop => exact encode_of_decodeGroup0 hop h
  case h_9 hop => exact encode_of_decodeGroup8 hop h
  case h_15 hop => exact encode_of_decodeGroupE hop h
  case h_16 =>
    have hlt := opField_lt w
    have hop : opField w = 0xF := by
      simp only [imp_false] at *
      omega
    exact encode_of_decodeGroupF hop h
  case h_2 hop | h_3 hop | h_11 hop | h_12 hop => cases h; exact ⟨rfl, wordNnn_fields hop⟩
  case h_4 hop | h_5 hop | h_7 hop | h_8 hop | h_13 hop => cases h; exact ⟨rfl, wordXnn_fields hop rfl⟩
  case h_14 hop => cases h; exact ⟨rfl, wordXyn_fields hop rfl⟩
  case h_6 hop => exact absurd hop h5
  case h_10 hop => exact absurd hop h9

/-- Groups 5 and 9 ignore n (R53, D11). -/
theorem encode_of_decode_ignoring_n {w : Word} {i : Instr} (hop : opField w = 5 ∨ opField w = 9)
    (h : decode w = .instr i) : i.WF ∧ encode i = w &&& 0xFFF0 := by
  obtain hop | hop := hop
  all_goals
    simp only [decode, hop] at h
    cases h
    exact ⟨rfl, wordXyn_fields_zero hop⟩

/-- Settles O2: by whether the word's group ignores n. -/
theorem encodeOfDecodeIsTheWord : Obligations.EncodeOfDecodeIsTheWord := by
  unfold Obligations.EncodeOfDecodeIsTheWord
  intro w i h
  split
  · next hop => exact encode_of_decode_ignoring_n hop h
  · next hop =>
    obtain ⟨h5, h9⟩ := not_or.mp hop
    exact encode_of_decode h5 h9 h

/-! ### The unassigned words (R54) -/

theorem decodeGroup0_ne_unassigned (w : Word) (u : Unassigned) : decodeGroup0 w ≠ .unassigned u := by
  unfold decodeGroup0
  split
  · nofun
  split <;> nofun

theorem decodeGroup8_unassigned_iff (w : Word) :
    (∃ u, decodeGroup8 w = .unassigned u) ↔ (nField w).val ∈ [0x8, 0x9, 0xA, 0xB, 0xC, 0xD, 0xF] := by
  unfold decodeGroup8
  dsimp only
  split
  case h_10 =>
    have hlt := (nField w).isLt
    simp only [imp_false] at *
    simp only [Decoded.unassigned.injEq, exists_eq', true_iff, List.mem_cons, List.not_mem_nil, or_false]
    omega
  all_goals next hn => simp [hn]

theorem decodeGroupE_unassigned_iff (w : Word) :
    (∃ u, decodeGroupE w = .unassigned u) ↔ (nnField w).toNat ∉ [0x9E, 0xA1] := by
  unfold decodeGroupE
  split <;> simp_all

theorem decodeGroupF_unassigned_iff (w : Word) :
    (∃ u, decodeGroupF w = .unassigned u) ↔
      (nnField w).toNat ∉ [0x07, 0x0A, 0x15, 0x18, 0x1E, 0x29, 0x33, 0x55, 0x65] := by
  unfold decodeGroupF
  dsimp only
  split <;> simp_all

/-- Only groups 8, E and F have unassigned words. -/
theorem decode_unassigned_iff (w : Word) :
    (∃ u, decode w = .unassigned u) ↔
      (opField w = 0x8 ∧ ∃ u, decodeGroup8 w = .unassigned u) ∨
      (opField w = 0xE ∧ ∃ u, decodeGroupE w = .unassigned u) ∨
      (opField w = 0xF ∧ ∃ u, decodeGroupF w = .unassigned u) := by
  unfold decode
  split
  case h_1 hop => simp [hop, decodeGroup0_ne_unassigned]
  case h_16 =>
    have hlt := opField_lt w
    have hop : opField w = 0xF := by
      simp only [imp_false] at *
      omega
    simp [hop]
  all_goals next hop => simp [hop]

theorem keepsBut_advance (s : State) : KeepsBut (fun p => p = .pc ∨ p = .status) s (advance s) := by
  intro p hp
  cases p <;> simp_all [Part.Same, State.keyDown]

/-- An unassigned word in memory executes as its fetch advance (R54, R60). -/
theorem fetchStep_of_unassigned {s : State} {u : Unassigned} (hpc : s.pc.toNat + 1 ≤ 0xFFF)
    (hu : decode (fetchedWord s) = .unassigned u) : fetchStep s = .next (advance s) := by
  have hok : firstBad s.pc.toNat 2 = none := firstBad_eq_none.mpr (.inr (Nat.succ_le_succ hpc))
  simp only [fetchStep, hok, executeWord, hu]

/-- Settles O3: the three groups' unassigned words, and the fetch advance with its frame. -/
theorem unassignedWordsAreNoOps : Obligations.UnassignedWordsAreNoOps := by
  unfold Obligations.UnassignedWordsAreNoOps
  refine ⟨fun w => ?_, fun s u hpc hu => ?_⟩
  · rw [decode_unassigned_iff, decodeGroup8_unassigned_iff, decodeGroupE_unassigned_iff, decodeGroupF_unassigned_iff]
  · exact ⟨advance s, fetchStep_of_unassigned hpc hu, advance_pc s, advance_status s, keepsBut_advance s⟩

/-- Settles O4, by running the decoder on the words. -/
theorem sampleWordsDecode : Obligations.SampleWordsDecode := by
  unfold Obligations.SampleWordsDecode
  decide

end Sys2Proof.Machine
end

section
/-! Control flow (41_control_flow.md): the fetch of a step (R60), calls and returns (R63, R65, R71), jumps (R64, R70), the
compare-and-skips (R66..R69) and SYS (R62). -/

namespace Sys2Proof.Machine

/-! ### The fetch of a step -/

/-- In Loaded and Running the interpreter's turn, once taken off, is a fetch step (R60, R150). -/
theorem step_of_fetching {s : State} {rest : List Turn} (hf : s.fetching = true) (hn : InterpreterNext s rest) :
    step s = fetchStep { s with schedule := rest } := by
  have hf' : State.fetching { s with schedule := rest } = true := hf
  rw [step_of_interpreterNext hn (State.live_of_fetching hf), interpreterStep_of_fetching hf']

/-- An instruction's word in memory is executed after the fetch advance (R60). -/
theorem fetchStep_of_instr {s : State} {i : Instr} (hpc : s.pc.toNat + 1 ≤ 0xFFF)
    (hi : decode (fetchedWord s) = .instr i) : fetchStep s = exec i (advance s) := by
  have hok : firstBad s.pc.toNat 2 = none := firstBad_eq_none.mpr (.inr (Nat.succ_le_succ hpc))
  simp only [fetchStep, hok, executeWord, hi]

/-- A fetch with a byte above 0xFFF halts at the lowest such address, before the fetch advance (R60, R144). -/
theorem fetchStep_of_outside {s : State} (hpc : 0xFFE < s.pc.toNat) :
    fetchStep s = .next (s.haltAt s.pc (.addressOutOfRange (.address (max s.pc.toNat 0x1000)))) := by
  have hbad : firstBad s.pc.toNat 2 = some (max s.pc.toNat 0x1000) :=
    firstBad_eq_some.mpr ⟨Nat.two_pos, Nat.add_lt_add_right hpc 2, rfl⟩
  simp only [fetchStep, hbad]

theorem keepsBut_setSchedule (s : State) (rest : List Turn) :
    KeepsBut (fun p => p = .schedule) s { s with schedule := rest } := by
  intro p hp
  cases p with
  | schedule => exact absurd rfl hp
  | _ => rfl

/-- Settles O5: the two bytes are in memory, so the fetch succeeds and reads their concatenation. -/
theorem stepRunsTheDecodedInstruction : Obligations.StepRunsTheDecodedInstruction := by
  unfold Obligations.StepRunsTheDecodedInstruction
  intro s rest i hf hn hpc hi
  rw [← wordOfBytes_eq_append] at hi
  exact (step_of_fetching hf hn).trans (fetchStep_of_instr (s := { s with schedule := rest }) hpc hi)

/-- Settles O6: the turn is taken off, and the fetch halts. -/
theorem fetchOutsideMemoryHalts : Obligations.FetchOutsideMemoryHalts := by
  unfold Obligations.FetchOutsideMemoryHalts
  intro s rest hf hn hpc
  refine ⟨_, (step_of_fetching hf hn).trans (fetchStep_of_outside hpc), State.haltAt_status _ _ _,
    State.haltAt_schedule _ _ _, ?_⟩
  exact ((keepsBut_setSchedule s rest).mono fun _ => .inr).trans ((keepsBut_haltAt _ _ _).mono fun _ => .inl)

/-! ### Calls and returns -/

theorem keepsBut_setStack (s : State) (l : List Word) : KeepsBut (fun p => p = .stack) s { s with stack := l } := by
  intro p hp
  cases p with
  | stack => exact absurd rfl hp
  | _ => rfl

/-- What a call and a return may touch. -/
theorem keepsBut_setStack_setPc (s : State) (l : List Word) (w : Word) :
    KeepsBut (fun p => p = .pc ∨ p = .stack) s (State.setPc { s with stack := l } w) :=
  ((keepsBut_setStack s l).mono fun _ => .inr).trans ((keepsBut_setPc _ w).mono fun _ => .inl)

theorem exec_ret_of_concat {s : State} {l : List Word} {w : Word} (h : s.stack = l ++ [w]) :
    exec .ret s = .next (State.setPc { s with stack := l } w) := by
  simp only [exec, execRet, State.pop_concat s h]

theorem exec_ret_of_nil {s : State} (h : s.stack = []) :
    exec .ret s = .next (s.haltAt s.instrAddr .stackUnderflow) := by
  simp only [exec, execRet, (State.pop_eq_none s).mpr h, raise]

theorem exec_call_of_room {nnn : Addr12} {s : State} (h : s.params.stackCapacity ≠ some s.sp) :
    exec (.call nnn) s = .next ((s.push s.pc).setPc (zextNnn nnn)) :=
  if_neg h

theorem exec_call_of_full {nnn : Addr12} {s : State} (h : s.params.stackCapacity = some s.sp) :
    exec (.call nnn) s = .next (s.haltAt s.instrAddr .stackOverflow) :=
  if_pos h

@[simp] theorem zextNnn_toNat (nnn : Addr12) : (zextNnn nnn).toNat = nnn.toNat := by
  have := nnn.isLt
  rw [zextNnn, BitVec.toNat_ofNat]
  omega

@[simp] theorem zextByte_toNat (b : Byte) : (zextByte b).toNat = b.toNat := by
  have := b.isLt
  rw [zextByte, BitVec.toNat_ofNat]
  omega

/-- Settles O36: by whether the stack is empty. -/
theorem returnPopsIntoPc : Obligations.ReturnPopsIntoPc := by
  unfold Obligations.ReturnPopsIntoPc
  refine ⟨rfl, fun s l w h => ?_, fun s h => ?_⟩
  · exact ⟨_, exec_ret_of_concat h, rfl, rfl, keepsBut_setStack_setPc s l w⟩
  · exact ⟨_, exec_ret_of_nil h, rfl, keepsBut_haltAt s _ _⟩

/-- Settles O38: by whether the capacity is reached. -/
theorem callPushesAndJumps : Obligations.CallPushesAndJumps := by
  unfold Obligations.CallPushesAndJumps
  refine ⟨fun w hop => by simp only [decode, hop], fun nnn s h => ?_, fun nnn s h => ?_⟩
  · exact ⟨_, exec_call_of_room h, rfl, zextNnn_toNat nnn, keepsBut_setStack_setPc s _ _⟩
  · exact ⟨_, exec_call_of_full h, rfl, keepsBut_haltAt s _ _⟩

/-- Settles O39: CALL leaves PC on top of the old stack (O38), and RET pops it in any state with that stack (O36). -/
theorem callThenReturnRestoresPc : Obligations.CallThenReturnRestoresPc := by
  unfold Obligations.CallThenReturnRestoresPc
  intro nnn s h
  obtain ⟨-, hcall, -⟩ := callPushesAndJumps
  obtain ⟨-, hret, -⟩ := returnPopsIntoPc
  obtain ⟨t, ht, hstack, -, hkeep⟩ := hcall nnn s h
  refine ⟨t, ht, fun x => hkeep (.reg x) (by simp), fun a => hkeep (.byte a) (by simp), fun u hu => ?_⟩
  exact hret u s.stack s.pc (hu.trans hstack)

/-! ### SYS and the jumps -/

/-- Settles O35: the words of CLS and RET shut out, group 0 is SYS, whose meaning is the state it is given. -/
theorem sysDoesNothing : Obligations.SysDoesNothing := by
  unfold Obligations.SysDoesNothing
  refine ⟨fun w hop hcls hret => ?_, fun nnn s => ⟨s, rfl, KeepsBut.refl _ s⟩⟩
  simp only [decode, hop, decodeGroup0, if_neg hcls, if_neg hret]

/-- Settles O37: PC is set to the zero-extended address. -/
theorem jumpSetsPc : Obligations.JumpSetsPc := by
  unfold Obligations.JumpSetsPc
  refine ⟨fun w hop => by simp only [decode, hop], fun nnn s => ?_⟩
  exact ⟨_, rfl, zextNnn_toNat nnn, keepsBut_setPc s _⟩

/-- Settles O42: a byte and a 12-bit address sum to less than 65536. -/
theorem indexedJumpAddsV0 : Obligations.IndexedJumpAddsV0 := by
  unfold Obligations.IndexedJumpAddsV0
  refine ⟨fun w hop => by simp only [decode, hop], fun nnn s => ?_⟩
  refine ⟨_, rfl, ?_, keepsBut_setPc s _⟩
  have hbyte := (s.reg 0).isLt
  have haddr := nnn.isLt
  rw [State.setPc_pc, BitVec.toNat_add, zextByte_toNat, zextNnn_toNat]
  omega

/-! ### The compare-and-skips -/

/-- An instruction that skips on equality advances PC exactly when its operands are equal. -/
theorem exec_skips_iff_eq {i : Instr} {s : State} {a b : Byte} (h : exec i s = .next (s.skipIf (a == b))) :
    ∃ t, exec i s = .next t ∧ (a = b → t.pc = s.pc + 2) ∧ (a ≠ b → t.pc = s.pc) ∧ KeepsBut (fun p => p = .pc) s t := by
  refine ⟨_, h, fun heq => ?_, fun hne => ?_, keepsBut_skipIf s _⟩
  · simp [heq]
  · simp [hne]

/-- An instruction that skips on inequality advances PC exactly when its operands differ. -/
theorem exec_skips_iff_ne {i : Instr} {s : State} {a b : Byte} (h : exec i s = .next (s.skipIf (a != b))) :
    ∃ t, exec i s = .next t ∧ (a ≠ b → t.pc = s.pc + 2) ∧ (a = b → t.pc = s.pc) ∧ KeepsBut (fun p => p = .pc) s t := by
  refine ⟨_, h, fun hne => ?_, fun heq => ?_, keepsBut_skipIf s _⟩
  · simp [hne]
  · simp [heq]

/-- Settles O40: V[x] is compared with the immediate. -/
theorem immediateSkips : Obligations.ImmediateSkips := by
  unfold Obligations.ImmediateSkips
  refine ⟨fun w hop => by simp only [decode, hop], fun w hop => by simp only [decode, hop], fun x nn s => ?_⟩
  exact ⟨exec_skips_iff_eq (i := .seImm x nn) rfl, exec_skips_iff_ne (i := .sneImm x nn) rfl⟩

/-- Settles O41: V[x] is compared with V[y]; the decoder drops n. -/
theorem registerSkips : Obligations.RegisterSkips := by
  unfold Obligations.RegisterSkips
  refine ⟨fun w hop => by simp only [decode, hop], fun w hop => by simp only [decode, hop], fun x y s => ?_⟩
  exact ⟨exec_skips_iff_eq (i := .seReg x y) rfl, exec_skips_iff_ne (i := .sneReg x y) rfl⟩

end Sys2Proof.Machine
end

section
/-! Registers and arithmetic (42_alu.md): loads and the add of an immediate (R81..R83), the bitwise operations (R84..R86), the
operations with a flag (R87..R91) and the masked draw (R93). -/

namespace Sys2Proof.Machine

theorem decode_of_group8 {w : Word} (hop : opField w = 0x8) : decode w = decodeGroup8 w := by
  simp only [decode, hop]

/-! ### Loads and the add of an immediate -/

/-- Settles O43: V[x] is set, and the sum of bytes is the sum modulo 256. -/
theorem loadsAndAddImmediate : Obligations.LoadsAndAddImmediate := by
  unfold Obligations.LoadsAndAddImmediate
  refine ⟨fun w hop => by simp only [decode, hop], fun w hop => by simp only [decode, hop],
    fun w hop hn => by simp only [decode_of_group8 hop, decodeGroup8, hn], fun x y nn s => ⟨?ldImm, ?addImm, ?ldReg⟩⟩
  case ldImm => exact ⟨_, rfl, State.reg_setReg_same s x nn, keepsBut_setReg s x nn⟩
  case addImm =>
    refine ⟨_, rfl, ?_, keepsBut_setReg s x _⟩
    rw [State.reg_setReg_same, BitVec.toNat_add]
  case ldReg => exact ⟨_, rfl, State.reg_setReg_same s x _, keepsBut_setReg s x _⟩

/-! ### The bitwise operations -/

/-- Settles O44: the bits of the result are those of the operands, combined. -/
theorem bitwiseOperations : Obligations.BitwiseOperations := by
  unfold Obligations.BitwiseOperations
  refine ⟨fun w hop hn => by simp only [decode_of_group8 hop, decodeGroup8, hn],
    fun w hop hn => by simp only [decode_of_group8 hop, decodeGroup8, hn],
    fun w hop hn => by simp only [decode_of_group8 hop, decodeGroup8, hn], fun x y s => ⟨?or, ?and, ?xor⟩⟩
  case or =>
    refine ⟨_, rfl, fun k => ?_, keepsBut_setReg s x _⟩
    rw [State.reg_setReg_same, BitVec.getLsbD_or, Bool.or_eq_true]
  case and =>
    refine ⟨_, rfl, fun k => ?_, keepsBut_setReg s x _⟩
    rw [State.reg_setReg_same, BitVec.getLsbD_and, Bool.and_eq_true]
  case xor =>
    refine ⟨_, rfl, fun k => ?_, keepsBut_setReg s x _⟩
    rw [State.reg_setReg_same, BitVec.getLsbD_xor, bne_iff_ne]

/-! ### Results and flags of bytes (R80, R87..R91) -/

theorem carryFlag_eq (a b : Byte) : carryFlag a b = if a.toNat + b.toNat > 255 then 1 else 0 := by
  simp only [carryFlag, flagOf, decide_eq_true_eq, gt_iff_lt]

theorem notBorrowFlag_eq (a b : Byte) : notBorrowFlag a b = if b.toNat > a.toNat then 0 else 1 := by
  simp only [notBorrowFlag, flagOf, Bool.not_eq_true', decide_eq_false_iff_not, gt_iff_lt, ite_not]

/-- A flag as a number. -/
theorem flagOf_toNat (c : Bool) : (flagOf c).toNat = c.toNat := by cases c <;> rfl

theorem shrFlag_toNat (b : Byte) : (shrFlag b).toNat = b.toNat % 2 := by
  rw [shrFlag, flagOf_toNat, BitVec.getLsbD, Nat.toNat_testBit, Nat.pow_zero, Nat.div_one]

theorem shlFlag_toNat (b : Byte) : (shlFlag b).toNat = b.toNat / 128 := by
  have := b.isLt
  rw [shlFlag, flagOf_toNat, BitVec.getLsbD, Nat.toNat_testBit]
  omega

theorem toNat_byte_sub (a b : Byte) : (a - b).toNat = (256 + a.toNat - b.toNat) % 256 := by
  have := b.isLt
  rw [BitVec.toNat_sub]
  omega

theorem toNat_byte_shiftRight_one (b : Byte) : (b >>> 1).toNat = b.toNat / 2 := by
  rw [BitVec.toNat_ushiftRight, Nat.shiftRight_eq_div_pow, Nat.pow_one]

theorem toNat_byte_shiftLeft_one (b : Byte) : (b <<< 1).toNat = b.toNat * 2 % 256 := by
  rw [BitVec.toNat_shiftLeft, Nat.shiftLeft_eq, Nat.pow_one]

/-! ### The operations with a flag -/

/-- An instruction that writes a result and then a flag leaves the flag in VF, and the result in V[x] unless x = F (R11, R80). -/
theorem exec_sets_reg_flag {i : Instr} {s : State} {x : Reg} {r f : Byte} (h : exec i s = .next (s.setRegFlag x r f)) :
    ∃ t, exec i s = .next t ∧ t.reg 15 = f ∧ (x ≠ 15 → t.reg x = r) ∧
      KeepsBut (fun p => p = .reg x ∨ p = .reg 15) s t :=
  ⟨_, h, State.reg_setRegFlag_flag s x r f, State.reg_setRegFlag_dest s r f, keepsBut_setRegFlag s x r f⟩

/-- Settles O45: the flag is the carry, the result the sum modulo 256. -/
theorem addRegistersSetsCarry : Obligations.AddRegistersSetsCarry := by
  unfold Obligations.AddRegistersSetsCarry
  refine ⟨fun w hop hn => by simp only [decode_of_group8 hop, decodeGroup8, hn], fun x y s => ?_⟩
  obtain ⟨t, ht, hflag, hdest, hkeep⟩ := exec_sets_reg_flag (i := .addReg x y) (s := s) rfl
  refine ⟨t, ht, hflag.trans (carryFlag_eq _ _), fun hx => ?_, hkeep⟩
  rw [hdest hx, BitVec.toNat_add]

/-- What SUB and SUBN share: the minuend `a` less the subtrahend `b`, with NOT borrow (R88, R90). -/
theorem exec_subtracts {i : Instr} {s : State} {x : Reg} {a b : Byte}
    (h : exec i s = .next (s.setRegFlag x (a - b) (notBorrowFlag a b))) :
    ∃ t, exec i s = .next t ∧ t.reg 15 = (if b.toNat > a.toNat then 0 else 1) ∧
      (x ≠ 15 → (t.reg x).toNat = (256 + a.toNat - b.toNat) % 256) ∧
      KeepsBut (fun p => p = .reg x ∨ p = .reg 15) s t := by
  obtain ⟨t, ht, hflag, hdest, hkeep⟩ := exec_sets_reg_flag h
  refine ⟨t, ht, hflag.trans (notBorrowFlag_eq a b), fun hx => ?_, hkeep⟩
  rw [hdest hx, toNat_byte_sub]

/-- Settles O46: SUB takes V[y] from V[x], SUBN V[x] from V[y]. -/
theorem subtractionsSetNotBorrow : Obligations.SubtractionsSetNotBorrow := by
  unfold Obligations.SubtractionsSetNotBorrow
  refine ⟨fun w hop hn => by simp only [decode_of_group8 hop, decodeGroup8, hn],
    fun w hop hn => by simp only [decode_of_group8 hop, decodeGroup8, hn], fun x y s => ?_⟩
  exact ⟨exec_subtracts (i := .subReg x y) rfl, exec_subtracts (i := .subn x y) rfl⟩

theorem shiftOperand_eq {s : State} {x y z : Reg}
    (h : (s.params.shiftSource = .vy ∧ z = y) ∨ (s.params.shiftSource = .vx ∧ z = x)) : shiftOperand s x y = s.reg z := by
  obtain ⟨hsrc, rfl⟩ | ⟨hsrc, rfl⟩ := h
  · simp only [shiftOperand, hsrc]
  · simp only [shiftOperand, hsrc]

/-- Settles O47: both shift V[z], halving and doubling modulo 256; the flag is the lowest, respectively the highest bit. -/
theorem shiftsSetTheBitShiftedOut : Obligations.ShiftsSetTheBitShiftedOut := by
  unfold Obligations.ShiftsSetTheBitShiftedOut
  refine ⟨fun w hop hn => by simp only [decode_of_group8 hop, decodeGroup8, hn],
    fun w hop hn => by simp only [decode_of_group8 hop, decodeGroup8, hn], fun x y z s hz => ?_⟩
  rw [← shiftOperand_eq hz]
  constructor
  case left =>
    obtain ⟨t, ht, hflag, hdest, hkeep⟩ := exec_sets_reg_flag (i := .shr x y) (s := s) rfl
    refine ⟨t, ht, ?_, fun hx => ?_, hkeep⟩
    · rw [hflag, shrFlag_toNat]
    · rw [hdest hx, toNat_byte_shiftRight_one]
  case right =>
    obtain ⟨t, ht, hflag, hdest, hkeep⟩ := exec_sets_reg_flag (i := .shl x y) (s := s) rfl
    refine ⟨t, ht, ?_, fun hx => ?_, hkeep⟩
    · rw [hflag, shlFlag_toNat]
    · rw [hdest hx, toNat_byte_shiftLeft_one]

/-! ### The masked draw -/

theorem keepsBut_setDraws (s : State) (n : Nat) : KeepsBut (fun p => p = .draws) s { s with draws := n } := by
  intro p hp
  cases p with
  | draws => exact absurd rfl hp
  | _ => rfl

/-- Settles O48, for a drawn byte of any value: V[x] is written, and the draw counted. -/
theorem randomByteIsMasked : Obligations.RandomByteIsMasked := by
  unfold Obligations.RandomByteIsMasked
  refine ⟨fun w hop => by simp only [decode, hop], fun x nn s => ?_⟩
  refine ⟨_, rfl, State.reg_setReg_same s x _, rfl, ?_⟩
  exact ((keepsBut_setReg s x _).mono fun _ => .inl).trans ((keepsBut_setDraws _ _).mono fun _ => .inr)

end Sys2Proof.Machine
end

section
/-! The index register and the memory transfers (43_index_memory.md): LD I, ADD I and LD F (R100..R102), the decimal digits
(R103), the register dump and the register load (R104, R105). -/

namespace Sys2Proof.Machine

theorem decode_of_groupF {w : Word} (hop : opField w = 0xF) : decode w = decodeGroupF w := by
  simp only [decode, hop]

/-! ### The index register -/

/-- The mask of R102 takes the low nibble, and five times a nibble fits a word. -/
@[simp] theorem glyphAddr_toNat (b : Byte) : (glyphAddr b).toNat = 5 * (b.toNat % 16) := by
  have hnibble : (b &&& 0xF).toNat = b.toNat % 16 := Nat.and_two_pow_sub_one_eq_mod b.toNat 4
  rw [glyphAddr, hnibble, BitVec.toNat_ofNat]
  omega

/-- Settles O49: each sets I alone. -/
theorem indexRegisterInstructions : Obligations.IndexRegisterInstructions := by
  unfold Obligations.IndexRegisterInstructions
  refine ⟨fun w hop => by simp only [decode, hop],
    fun w hop hnn => by simp only [decode_of_groupF hop, decodeGroupF, hnn],
    fun w hop hnn => by simp only [decode_of_groupF hop, decodeGroupF, hnn], fun x nnn s => ⟨?ldI, ?addI, ?ldF⟩⟩
  case ldI => exact ⟨_, rfl, zextNnn_toNat nnn, keepsBut_setI s _⟩
  case addI =>
    refine ⟨_, rfl, ?_, keepsBut_setI s _⟩
    rw [State.setI_i, BitVec.toNat_add, zextByte_toNat]
  case ldF => exact ⟨_, rfl, glyphAddr_toNat _, keepsBut_setI s _⟩

/-! ### The address check of a transfer (R33, R143) -/

/-- A transfer of `n + 1` bytes whose last address is in 0x000..0xFFF passes the check. -/
theorem firstBad_of_last_le {lo n : Nat} (h : lo + n ≤ 0xFFF) : firstBad lo (n + 1) = none :=
  firstBad_eq_none.mpr (.inr (Nat.succ_le_succ h))

/-- A transfer of `n + 1` bytes whose last address is above 0xFFF fails the check. -/
theorem firstBad_of_lt_last {lo n : Nat} (h : 0xFFF < lo + n) : firstBad lo (n + 1) = some (max lo 0x1000) :=
  firstBad_eq_some.mpr ⟨Nat.succ_pos n, Nat.succ_lt_succ h, rfl⟩

/-- An instruction that raises a fatal condition halts with its record and changes nothing but the status (R143, R144). -/
theorem exec_halts {i : Instr} {s : State} {r : Fatal} (h : exec i s = .next (s.haltAt s.instrAddr r)) :
    ∃ t, exec i s = .next t ∧ t.status = .halted (.fatal r s.instrAddr) ∧ KeepsBut (fun p => p = .status) s t :=
  ⟨_, h, State.haltAt_status _ _ _, keepsBut_haltAt s _ _⟩

/-! ### The decimal digits (R103) -/

/-- The digits as numbers: each is below 256, so its byte holds it. -/
theorem bcdDigits_map_toNat (b : Byte) :
    (bcdDigits b).map BitVec.toNat = [b.toNat / 100, b.toNat / 10 % 10, b.toNat % 10] := by
  have := b.isLt
  simp only [bcdDigits, List.map_cons, List.map_nil, BitVec.toNat_ofNat, List.cons.injEq, and_true]
  omega

theorem exec_ldB_of_le {s : State} {x : Reg} (h : s.i.toNat + 2 ≤ 0xFFF) :
    exec (.ldB x) s = .next { s with mem := s.mem.writeList s.i.toNat (bcdDigits (s.reg x)) } := by
  have hok : firstBad s.iAddr 3 = none := firstBad_of_last_le h
  simp only [exec, execLdB, hok]
  rfl

theorem exec_ldB_of_lt {s : State} {x : Reg} (h : 0xFFF < s.i.toNat + 2) :
    exec (.ldB x) s = .next (s.haltAt s.instrAddr (.addressOutOfRange (.address (max s.i.toNat 0x1000)))) := by
  have hbad : firstBad s.iAddr 3 = some (max s.i.toNat 0x1000) := firstBad_of_lt_last h
  simp only [exec, execLdB, hbad, raise]

/-- After the digits of a byte are written from `a` on, the byte at `a + k` is the k-th digit. -/
theorem Memory.read_writeList_bcdDigits (m : Memory) (b : Byte) {a : Nat} (h : a + 2 ≤ 0xFFF) (k : Nat) (hk : k < 3) :
    ((m.writeList a (bcdDigits b)).read (a + k)).toNat = [b.toNat / 100, b.toNat / 10 % 10, b.toNat % 10][k] := by
  rw [Memory.read_writeList_inside m a (bcdDigits b) k hk (Nat.succ_le_succ h)]
  exact (List.getElem_map BitVec.toNat).symm.trans (List.getElem_of_eq (bcdDigits_map_toNat b) hk)

/-- Settles O50: by whether the third address is in memory. -/
theorem bcdStoresThreeDigits : Obligations.BcdStoresThreeDigits := by
  unfold Obligations.BcdStoresThreeDigits
  refine ⟨fun w hop hnn => by simp only [decode_of_groupF hop, decodeGroupF, hnn], fun x s h => ?_,
    fun x s h => exec_halts (exec_ldB_of_lt h)⟩
  have hdigit := Memory.read_writeList_bcdDigits s.mem (s.reg x) h
  refine ⟨_, exec_ldB_of_le h, hdigit 0 (by decide), hdigit 1 (by decide), hdigit 2 (by decide), ?_⟩
  exact (keepsBut_writeList s s.i.toNat _).mono fun _ ⟨k, hk, hp⟩ => ⟨k, Nat.le_of_lt_succ hk, hp⟩

/-! ### I after a dump or a load (D4) -/

theorem indexAfter_toNat_of_inc {s : State} (x : Reg) (h : s.params.loadStoreIncI = true) :
    (indexAfter s x).toNat = (s.i.toNat + x.val + 1) % 65536 := by
  rw [indexAfter, if_pos h, BitVec.toNat_add, BitVec.toNat_ofNat]
  omega

theorem indexAfter_of_not_inc {s : State} (x : Reg) (h : s.params.loadStoreIncI = false) : indexAfter s x = s.i := by
  rw [indexAfter, h, if_neg Bool.false_ne_true]

/-! ### The register dump (R104) -/

theorem exec_storeRegs_of_lt {s : State} {x : Reg} (h : 0xFFF < s.i.toNat + x.val) :
    exec (.storeRegs x) s = .next (s.haltAt s.instrAddr (.addressOutOfRange (.address (max s.i.toNat 0x1000)))) := by
  have hbad : firstBad s.iAddr (x.val + 1) = some (max s.i.toNat 0x1000) := firstBad_of_lt_last h
  simp only [exec, execStoreRegs, hbad, raise]

/-- What a dump touches: I and the `x + 1` bytes it writes. -/
theorem keepsBut_dump (s : State) (a : Nat) (x : Reg) (w : Word) :
    KeepsBut (fun p => p = .index ∨ ∃ k, k ≤ x.val ∧ p = .byte (a + k)) s
      { s with mem := s.mem.writeList a (s.regsUpTo x), i := w } := by
  have hlen : (s.regsUpTo x).length = x.val + 1 := State.length_regsUpTo s x
  refine ((keepsBut_writeList s a (s.regsUpTo x)).mono ?_).trans ((keepsBut_setI _ w).mono fun _ => .inl)
  exact fun _ ⟨k, hk, hp⟩ => .inr ⟨k, Nat.le_of_lt_succ (Nat.lt_of_lt_of_eq hk hlen), hp⟩

/-- Settles O51: by whether the last address is in memory. -/
theorem registerDumpStoresInOrder : Obligations.RegisterDumpStoresInOrder := by
  unfold Obligations.RegisterDumpStoresInOrder
  refine ⟨fun w hop hnn => by simp only [decode_of_groupF hop, decodeGroupF, hnn], fun x s h => ?_,
    fun x s h => exec_halts (exec_storeRegs_of_lt h)⟩
  exact ⟨_, exec_storeRegs_of_le h, fun _ => Memory.read_writeList_regsUpTo s.mem s h, indexAfter_toNat_of_inc x,
    indexAfter_of_not_inc x, keepsBut_dump s s.i.toNat x _⟩

/-! ### The register load (R105) -/

theorem exec_loadRegs_of_le {s : State} {x : Reg} (h : s.i.toNat + x.val ≤ 0xFFF) :
    exec (.loadRegs x) s =
      .next ((s.setRegs 0 (s.mem.readList s.i.toNat (x.val + 1))).setI (indexAfter s x)) := by
  have hok : firstBad s.iAddr (x.val + 1) = none := firstBad_of_last_le h
  simp only [exec, execLoadRegs, hok]
  rfl

theorem exec_loadRegs_of_lt {s : State} {x : Reg} (h : 0xFFF < s.i.toNat + x.val) :
    exec (.loadRegs x) s = .next (s.haltAt s.instrAddr (.addressOutOfRange (.address (max s.i.toNat 0x1000)))) := by
  have hbad : firstBad s.iAddr (x.val + 1) = some (max s.i.toNat 0x1000) := firstBad_of_lt_last h
  simp only [exec, execLoadRegs, hbad, raise]

/-- Writing V0 and the registers after it from a list of bytes keeps everything but those registers. -/
theorem keepsBut_setRegs (s : State) (bs : List Byte) (hbs : bs.length ≤ 16) :
    KeepsBut (fun p => ∃ r : Reg, r.val < bs.length ∧ p = .reg r) s (s.setRegs 0 bs) := by
  intro p hp
  cases p with
  | reg q =>
    have hq : bs.length ≤ q.val := Nat.le_of_not_lt fun hlt => hp ⟨q, hlt, rfl⟩
    exact State.reg_setRegs_outside s 0 bs q (by omega) (by omega)
  | _ => simp [Part.Same, State.keyDown]

/-- What a load touches: I and V0..Vx. -/
theorem keepsBut_load (s : State) (a : Nat) (x : Reg) (w : Word) :
    KeepsBut (fun p => p = .index ∨ ∃ k : Reg, k.val ≤ x.val ∧ p = .reg k) s
      ((s.setRegs 0 (s.mem.readList a (x.val + 1))).setI w) := by
  have hlen : (s.mem.readList a (x.val + 1)).length = x.val + 1 := Memory.length_readList _ _ _
  have hfits : (s.mem.readList a (x.val + 1)).length ≤ 16 := Nat.le_trans (Nat.le_of_eq hlen) x.isLt
  refine ((keepsBut_setRegs s _ hfits).mono ?_).trans ((keepsBut_setI _ w).mono fun _ => .inl)
  exact fun _ ⟨k, hk, hp⟩ => .inr ⟨k, Nat.le_of_lt_succ (Nat.lt_of_lt_of_eq hk hlen), hp⟩

/-- V[k] takes the k-th byte read from `a` on. -/
theorem State.reg_setRegs_readList (s : State) (m : Memory) (a : Nat) {x k : Reg} (hk : k.val ≤ x.val) :
    (s.setRegs 0 (m.readList a (x.val + 1))).reg k = m.read (a + k.val) := by
  have hx := x.isLt
  have hlen : (m.readList a (x.val + 1)).length = x.val + 1 := Memory.length_readList _ _ _
  rw [State.reg_setRegs_inside s 0 _ k (by omega) k.val (by omega) (Nat.zero_add _).symm,
    Memory.getElem_readList m a (x.val + 1) k.val (Nat.lt_succ_of_le hk)]

/-- Settles O52: by whether the last address is in memory. -/
theorem registerLoadReadsInOrder : Obligations.RegisterLoadReadsInOrder := by
  unfold Obligations.RegisterLoadReadsInOrder
  refine ⟨fun w hop hnn => by simp only [decode_of_groupF hop, decodeGroupF, hnn], fun x s h => ?_,
    fun x s h => exec_halts (exec_loadRegs_of_lt h)⟩
  exact ⟨_, exec_loadRegs_of_le h, fun _ => State.reg_setRegs_readList s s.mem s.i.toNat, indexAfter_toNat_of_inc x,
    indexAfter_of_not_inc x, keepsBut_load s s.i.toNat x _⟩

/-! ### The load after the dump -/

/-- Settles O53: the load reads (O52) the bytes the dump stored (O51), and its frame holds the registers above x. -/
theorem loadInvertsDump : Obligations.LoadInvertsDump := by
  unfold Obligations.LoadInvertsDump
  intro x s t u hs hdump hmem hi
  obtain ⟨-, hstore, -⟩ := registerDumpStoresInOrder
  obtain ⟨-, hload, -⟩ := registerLoadReadsInOrder
  obtain ⟨t', ht', hbytes, -⟩ := hstore x s hs
  cases hdump.symm.trans ht'
  obtain ⟨v, hv, hregs, -, -, hkeep⟩ := hload x u (hi ▸ hs)
  refine ⟨v, hv, fun k hk => ?_, fun k hk => hkeep (.reg k) ?_⟩
  · calc v.reg k = u.mem.read (u.i.toNat + k.val) := hregs k hk
      _ = t.mem.read (s.i.toNat + k.val) := by rw [hmem, hi]
      _ = s.reg k := hbytes k hk
  · simpa using hk

end Sys2Proof.Machine
end

section
/-! The display (44_display.md): CLS (R115), one draw of DRW (R116, R117), and the same draw made twice (R118). -/

namespace Sys2Proof.Machine

theorem keepsBut_setFb (s : State) (f : Framebuffer) :
    KeepsBut (fun p => ∃ r c, p = .pixel r c) s { s with fb := f } := by
  intro p hp
  cases p with
  | pixel r c => exact absurd ⟨r, c, rfl⟩ hp
  | _ => rfl

theorem keepsBut_strobe (s : State) : KeepsBut (fun p => p = .strobes) s s.strobe := by
  intro p hp
  cases p with
  | strobes => exact absurd rfl hp
  | _ => rfl

/-- Settles O54: the plane is replaced by the clear one, and the strobe counted. -/
theorem clearScreenClearsEveryPixel : Obligations.ClearScreenClearsEveryPixel := by
  unfold Obligations.ClearScreenClearsEveryPixel
  refine ⟨rfl, fun s => ⟨_, rfl, pixel_clearPlane, rfl, ?_⟩⟩
  exact ((keepsBut_setFb s clearPlane).mono fun _ => .inr).trans ((keepsBut_strobe _).mono fun _ => .inl)

/-! ### One draw -/

/-- The plane and the collision of DRW's sprite drawn on the plane of `s` (R116). -/
def drwResult (x y : Reg) (n : Fin 16) (s : State) : Framebuffer × Bool := drawPixels (drwPixels x y n s) s.fb false

/-- The state after DRW has drawn: the plane, then VF, then the strobe (R116). -/
def drawnState (x y : Reg) (n : Fin 16) (s : State) : State :=
  (State.setReg { s with fb := (drwResult x y n s).1 } flagReg (flagOf (drwResult x y n s).2)).strobe

/-- Both checks of a drawable sprite pass (R33, R117). -/
theorem exec_drw_of_drawable {x y : Reg} {n : Fin 16} {s : State} (h : Drawable s x y n) :
    exec (.drw x y n) s = .next (drawnState x y n s) := by
  obtain ⟨haddr, hcoord⟩ := h
  have hbytes : firstBad s.iAddr n.val = none := firstBad_eq_none.mpr haddr
  have hpixels : offScreen s.params.drawCoord (drwPixels x y n s) = none := offScreen_eq_none.mpr hcoord
  simp only [exec, execDrw, hbytes, hpixels, drawnState, drwResult]

theorem pixel_drawnState_of_lands {x y : Reg} {n : Fin 16} {s : State} {r : Fin 32} {c : Fin 64}
    (h : SpriteLands s x y n r c) : pixel (drawnState x y n s).fb r c = !pixel s.fb r c := by
  have hdraw := pixel_drawPixels _ s.fb false (nodup_wrap_drwPixels x y n s) r c
  rwa [decide_eq_true (spriteLands_iff.mp h), Bool.xor_true] at hdraw

theorem pixel_drawnState_of_not_lands {x y : Reg} {n : Fin 16} {s : State} {r : Fin 32} {c : Fin 64}
    (h : ¬ SpriteLands s x y n r c) : pixel (drawnState x y n s).fb r c = pixel s.fb r c := by
  have hdraw := pixel_drawPixels _ s.fb false (nodup_wrap_drwPixels x y n s) r c
  rwa [decide_eq_false (mt spriteLands_iff.mpr h), Bool.xor_false] at hdraw

/-- VF after a draw is the collision. -/
theorem reg_flag_drawnState (x y : Reg) (n : Fin 16) (s : State) :
    (drawnState x y n s).reg 15 = flagOf (drwResult x y n s).2 :=
  State.reg_setReg_same _ flagReg _

/-- A draw collides iff its sprite lands on a pixel that is 1 (R116). -/
theorem drw_collides_iff {x y : Reg} {n : Fin 16} {s : State} :
    (drwResult x y n s).2 = true ↔ ∃ r c, SpriteLands s x y n r c ∧ pixel s.fb r c = true := by
  rw [drwResult, collision_drawPixels _ s.fb false (nodup_wrap_drwPixels x y n s), Bool.false_or, List.any_eq_true]
  constructor
  · rintro ⟨p, hp, hset⟩
    exact ⟨_, _, spriteLands_iff.mpr (List.mem_map_of_mem hp), hset⟩
  · rintro ⟨r, c, hl, hset⟩
    obtain ⟨p, hp, hpc⟩ := List.mem_map.mp (spriteLands_iff.mp hl)
    exact ⟨p, hp, by rwa [hpc]⟩

/-- What a draw may touch. -/
theorem keepsBut_drawnState (x y : Reg) (n : Fin 16) (s : State) :
    KeepsBut (fun p => p = .reg 15 ∨ p = .strobes ∨ ∃ r c, p = .pixel r c) s (drawnState x y n s) := by
  have hplane := keepsBut_setFb s (drwResult x y n s).1
  have hflag := keepsBut_setReg { s with fb := (drwResult x y n s).1 } flagReg (flagOf (drwResult x y n s).2)
  exact ((hplane.mono fun _ hp => Or.inr (Or.inr hp)).trans (hflag.mono fun _ => Or.inl)).trans
    ((keepsBut_strobe _).mono fun _ hp => Or.inr (Or.inl hp))

/-- Settles O55: the state after the draw, pixel by pixel, and VF by the collision. -/
theorem drawXorsTheWrappedSprite : Obligations.DrawXorsTheWrappedSprite := by
  unfold Obligations.DrawXorsTheWrappedSprite
  refine ⟨fun w hop => by simp only [decode, hop], fun x y n s hd => ?_⟩
  refine ⟨_, exec_drw_of_drawable hd, fun r c => pixel_drawnState_of_lands, fun r c => pixel_drawnState_of_not_lands,
    fun hset => ?_, fun hclear => ?_, rfl, keepsBut_drawnState x y n s⟩
  · rw [reg_flag_drawnState, drw_collides_iff.mpr hset, flagOf_true]
  · have hno : ¬ ∃ r c, SpriteLands s x y n r c ∧ pixel s.fb r c = true :=
      fun ⟨r, c, hl, hset⟩ => Bool.false_ne_true ((hclear r c hl).symm.trans hset)
    rw [reg_flag_drawnState, Bool.eq_false_iff.mpr (mt drw_collides_iff.mp hno), flagOf_false]

/-! ### The same draw twice (R118) -/

/-- The two states agree on all that decides where DRW Vx, Vy draws: the origin, I, the bytes of memory and the parameters. -/
structure SameSprite (x y : Reg) (s u : State) : Prop where
  column : u.reg x = s.reg x
  row : u.reg y = s.reg y
  index : u.i = s.i
  bytes : ∀ a, u.mem.read a = s.mem.read a
  params : u.params = s.params

theorem SameSprite.trans {x y : Reg} {s t u : State} (h1 : SameSprite x y s t) (h2 : SameSprite x y t u) :
    SameSprite x y s u where
  column := h2.column.trans h1.column
  row := h2.row.trans h1.row
  index := h2.index.trans h1.index
  bytes a := (h2.bytes a).trans (h1.bytes a)
  params := h2.params.trans h1.params

/-- A draw keeps what decides the next one, unless its origin is in VF. -/
theorem sameSprite_drawnState {x y : Reg} (n : Fin 16) (s : State) (hx : x ≠ 15) (hy : y ≠ 15) :
    SameSprite x y s (drawnState x y n s) where
  column := keepsBut_drawnState x y n s (.reg x) (by simp [hx])
  row := keepsBut_drawnState x y n s (.reg y) (by simp [hy])
  index := rfl
  bytes _ := rfl
  params := rfl

theorem SameSprite.spriteBit_iff {x y : Reg} {s u : State} (h : SameSprite x y s u) {n : Fin 16} {k j : Nat} :
    SpriteBit u n k j ↔ SpriteBit s n k j := by
  simp only [SpriteBit, State.iAddr, h.index, h.bytes]

theorem SameSprite.spriteLands_iff {x y : Reg} {s u : State} (h : SameSprite x y s u) {n : Fin 16} {r : Fin 32}
    {c : Fin 64} : SpriteLands u x y n r c ↔ SpriteLands s x y n r c := by
  simp only [SpriteLands, h.spriteBit_iff, h.column, h.row]

theorem SameSprite.drawable_iff {x y : Reg} {s u : State} (h : SameSprite x y s u) {n : Fin 16} :
    Drawable u x y n ↔ Drawable s x y n := by
  simp only [Drawable, SpriteOff, State.iAddr, h.spriteBit_iff, h.column, h.row, h.index, h.params]

/-- Settles O56: where the sprite lands the second draw undoes the flip of the first (O55), and it collides there with the
pixels the first draw set. -/
theorem drawingTwiceRestoresTheFramebuffer : Obligations.DrawingTwiceRestoresTheFramebuffer := by
  unfold Obligations.DrawingTwiceRestoresTheFramebuffer
  intro x y n s t u hx hy hd ht hcolumn hrow hindex hmem hfb hparams
  cases ht.symm.trans (exec_drw_of_drawable hd)
  have hsame : SameSprite x y s u :=
    (sameSprite_drawnState n s hx hy).trans ⟨hcolumn, hrow, hindex, fun a => congrArg (Memory.read · a) hmem, hparams⟩
  have hflipped {r : Fin 32} {c : Fin 64} (hl : SpriteLands s x y n r c) : pixel u.fb r c = !pixel s.fb r c :=
    hfb ▸ pixel_drawnState_of_lands hl
  obtain ⟨-, hdraw⟩ := drawXorsTheWrappedSprite
  obtain ⟨v, hv, hflip, hstay, hset, hclear, -⟩ := hdraw x y n u (hsame.drawable_iff.mpr hd)
  simp only [hsame.spriteLands_iff] at hflip hstay hset hclear
  refine ⟨v, hv, Framebuffer.ext_pixel fun r c => ?_, fun ⟨r, c, hl, hp⟩ => hset ⟨r, c, hl, ?_⟩,
    fun hall => hclear fun r c hl => ?_⟩
  · by_cases hl : SpriteLands s x y n r c
    · rw [hflip r c hl, hflipped hl, Bool.not_not]
    · rw [hstay r c hl, hfb, pixel_drawnState_of_not_lands hl]
  · rw [hflipped hl, hp, Bool.not_false]
  · rw [hflipped hl, hall r c hl, Bool.not_true]

/-- A sprite lands on some pixel iff it has a set bit: every place wraps to one of the plane (R116). -/
theorem exists_spriteLands_iff {x y : Reg} {n : Fin 16} {s : State} :
    (∃ r c, SpriteLands s x y n r c) ↔ ∃ k j, SpriteBit s n k j := by
  constructor
  · rintro ⟨r, c, k, j, hb, -⟩
    exact ⟨k, j, hb⟩
  · rintro ⟨k, j, hb⟩
    exact ⟨⟨_, Nat.mod_lt _ (by decide)⟩, ⟨_, Nat.mod_lt _ (by decide)⟩, k, j, hb, rfl, rfl⟩

/-- Settles O57: a sprite without a set bit lands nowhere, so VF = 0 by O56; one with a set bit lands somewhere, and there the
pixel was 0, so VF = 1 by O56. -/
theorem secondDrawReportsTheSpriteOnClearPixels : Obligations.SecondDrawReportsTheSpriteOnClearPixels := by
  unfold Obligations.SecondDrawReportsTheSpriteOnClearPixels
  intro x y n s t u hx hy hd ht hcolumn hrow hindex hmem hfb hparams
  obtain ⟨v, hv, -, hset, hclear⟩ :=
    drawingTwiceRestoresTheFramebuffer x y n s t u hx hy hd ht hcolumn hrow hindex hmem hfb hparams
  have hbit (hv1 : v.reg 15 = 1) : ∃ k j, SpriteBit s n k j := by
    refine Classical.byContradiction fun hnone => ?_
    have hv0 : v.reg 15 = 0 := hclear fun r c hl => absurd (exists_spriteLands_iff.mp ⟨r, c, hl⟩) hnone
    exact absurd (hv0.symm.trans hv1) (by decide)
  refine ⟨v, hv, hbit, fun hblank => ⟨hbit, fun hsome => ?_⟩⟩
  obtain ⟨r, c, hl⟩ := exists_spriteLands_iff.mpr hsome
  exact hset ⟨r, c, hl, hblank r c hl⟩

end Sys2Proof.Machine
end

section
/-! Timers and input (45_timers_input.md): the timer transfers (R127..R129), the key skips (R125, R126), and the entry and the
resume of the key-wait (R130, R131). -/

namespace Sys2Proof.Machine

theorem decode_of_groupE {w : Word} (hop : opField w = 0xE) : decode w = decodeGroupE w := by
  simp only [decode, hop]

/-! ### The timer transfers -/

/-- Settles O58: each copies into one register or one timer. -/
theorem timerTransfersCopy : Obligations.TimerTransfersCopy := by
  unfold Obligations.TimerTransfersCopy
  refine ⟨fun w hop hnn => by simp only [decode_of_groupF hop, decodeGroupF, hnn],
    fun w hop hnn => by simp only [decode_of_groupF hop, decodeGroupF, hnn],
    fun w hop hnn => by simp only [decode_of_groupF hop, decodeGroupF, hnn], fun x s => ⟨?ldVxDT, ?ldDTVx, ?ldSTVx⟩⟩
  case ldVxDT => exact ⟨_, rfl, State.reg_setReg_same s x s.dt, keepsBut_setReg s x _⟩
  case ldDTVx => exact ⟨_, rfl, State.setDT_dt s _, keepsBut_setDT s _⟩
  case ldSTVx => exact ⟨_, rfl, State.setST_st s _, keepsBut_setST s _⟩

/-! ### The key skips -/

theorem exec_skp_of_key {x : Reg} {k : Key} {s : State} (h : (s.reg x).toNat = k.val) :
    exec (.skp x) s = .next (s.skipIf (s.keyDown k)) := by
  simp only [exec, execSkp, (keyIndex_eq_some _ k).mpr h]

theorem exec_sknp_of_key {x : Reg} {k : Key} {s : State} (h : (s.reg x).toNat = k.val) :
    exec (.sknp x) s = .next (s.skipIf (!s.keyDown k)) := by
  simp only [exec, execSknp, (keyIndex_eq_some _ k).mpr h]

/-- A value that names no key halts SKP and SKNP alike (D7). -/
theorem exec_keySkip_of_no_key {x : Reg} {i : Instr} {s : State} (hi : i = .skp x ∨ i = .sknp x)
    (h : 15 < (s.reg x).toNat) :
    exec i s = .next (s.haltAt s.instrAddr (.addressOutOfRange (.key (s.reg x)))) := by
  have hkey : keyIndex (s.reg x) = none := (keyIndex_eq_none _).mpr h
  obtain rfl | rfl := hi
  · simp only [exec, execSkp, hkey, raise]
  · simp only [exec, execSknp, hkey, raise]

/-- Settles O59: by whether V[x] names a key. -/
theorem keySkipsTestTheLatch : Obligations.KeySkipsTestTheLatch := by
  unfold Obligations.KeySkipsTestTheLatch
  refine ⟨fun w hop hnn => by simp only [decode_of_groupE hop, decodeGroupE, hnn],
    fun w hop hnn => by simp only [decode_of_groupE hop, decodeGroupE, hnn], fun x k s hk => ⟨?skp, ?sknp⟩,
    fun x s i hi h => exec_halts (exec_keySkip_of_no_key hi h)⟩
  case skp =>
    refine ⟨_, exec_skp_of_key hk, fun hdown => ?_, fun hup => ?_, keepsBut_skipIf s _⟩
    · simp [hdown]
    · simp [hup]
  case sknp =>
    refine ⟨_, exec_sknp_of_key hk, fun hup => ?_, fun hdown => ?_, keepsBut_skipIf s _⟩
    · simp [hup]
    · simp [hdown]

/-! ### The key-wait -/

theorem keepsBut_setStatus (s : State) (st : Status) : KeepsBut (fun p => p = .status) s { s with status := st } := by
  intro p hp
  cases p with
  | status => exact absurd rfl hp
  | _ => rfl

/-- Settles O12: the status alone is written, whatever the latch holds. -/
theorem keyWaitEntryWaits : Obligations.KeyWaitEntryWaits := by
  unfold Obligations.KeyWaitEntryWaits
  refine ⟨fun w hop hnn => by simp only [decode_of_groupF hop, decodeGroupF, hnn], fun x s => ?_⟩
  exact ⟨_, rfl, rfl, keepsBut_setStatus s _⟩

/-- In Waiting the interpreter's turn, once taken off, is the resume (R131, R150). -/
theorem step_of_waiting {s : State} {x : Reg} {ks : List Key} {rest : List Turn} (hw : s.status = .waiting x ks)
    (hn : InterpreterNext s rest) : step s = .next (resumeWait x ks { s with schedule := rest }) := by
  have hl : s.live = true := by simp only [State.live, hw]
  rw [step_of_interpreterNext hn hl]
  simp only [interpreterStep, hw]

/-- Settles O14: there is no key to choose. -/
theorem keyWaitWithoutPressPasses : Obligations.KeyWaitWithoutPressPasses := by
  unfold Obligations.KeyWaitWithoutPressPasses
  intro s x rest hw hn
  exact step_of_waiting hw hn

/-- A wait with a recorded key resumes with one of them; the counter of draws may advance (R131; entry 4). -/
theorem resumeWait_of_ne_nil {x : Reg} {ks : List Key} (s : State) (h : ks ≠ []) :
    ∃ k ∈ ks, ∃ n, resumeWait x ks s = resumeWith x k { s with draws := n } := by
  obtain ⟨k, hk⟩ := chooseKey_isSome (Config.keyChoice s.draws) ks h
  refine ⟨k, chooseKey_mem _ ks k hk, if ks.length < 2 then s.draws else s.draws + 1, ?_⟩
  simp only [resumeWait, hk]

theorem reg_resumeWith (x : Reg) (k : Key) (s : State) : (resumeWith x k s).reg x = keyWaitByte s.params k :=
  State.reg_setReg_same s x _

theorem keepsBut_resumeWith (x : Reg) (k : Key) (s : State) :
    KeepsBut (fun p => p = .reg x ∨ p = .status) s (resumeWith x k s) :=
  ((keepsBut_setReg s x _).mono fun _ => .inl).trans ((keepsBut_setStatus _ _).mono fun _ => .inr)

theorem keyWaitByte_toNat_of_logicalIndex {p : Params} (h : p.keyWaitValue = .logicalIndex) (k : Key) :
    (keyWaitByte p k).toNat = k.val := by
  have := k.isLt
  simp only [keyWaitByte, h, BitVec.toNat_ofNat]
  omega

theorem keyWaitByte_of_scanCode {p : Params} (h : p.keyWaitValue = .scanCode) (k : Key) :
    keyWaitByte p k = p.scanCode[k] := by
  simp only [keyWaitByte, h]

/-- Settles O13: the resume writes the byte of the chosen key, an element of P. -/
theorem keyWaitResumesWithAPressedKey : Obligations.KeyWaitResumesWithAPressedKey := by
  unfold Obligations.KeyWaitResumesWithAPressedKey
  intro s x ks rest hw hne hn
  obtain ⟨k, hk, n, hresume⟩ := resumeWait_of_ne_nil (x := x) { s with schedule := rest } hne
  refine ⟨k, hk, _, (step_of_waiting hw hn).trans (congrArg _ hresume), fun hindex => ?_, fun hscan => ?_, rfl, rfl, ?_⟩
  · rw [reg_resumeWith]
    exact keyWaitByte_toNat_of_logicalIndex hindex k
  · rw [reg_resumeWith]
    exact keyWaitByte_of_scanCode hscan k
  · have hturn : KeepsBut (fun p => p = .schedule ∨ p = .draws) s { s with schedule := rest, draws := n } :=
      ((keepsBut_setSchedule s rest).mono fun _ => .inl).trans ((keepsBut_setDraws _ n).mono fun _ => .inr)
    exact (hturn.mono fun _ hp => .inr (.inr hp)).trans
      ((keepsBut_resumeWith x k _).mono fun _ hp => hp.imp_right .inl)

end Sys2Proof.Machine
end

section
/-! The agents beside the interpreter (60_exceptions.md): Halted is final (R145), the tick (R151), the key event (R152) and the
stop (R153). -/

namespace Sys2Proof.Machine

/-- Settles O7: `step` looks at the status before it looks at the turns. -/
theorem haltedIsFinal : Obligations.HaltedIsFinal := by
  unfold Obligations.HaltedIsFinal
  intro s h hs
  simp only [step, hs]

/-- Whether any agent has a step is read off the status alone (R145). -/
theorem State.live_congr {s t : State} (h : t.status = s.status) : t.live = s.live := by
  simp only [State.live, h]

/-! ### The tick -/

theorem keepsBut_tickStep (s : State) : KeepsBut (fun p => p = .dt ∨ p = .st) s (tickStep s) := by
  intro p hp
  cases p with
  | dt => exact absurd (.inl rfl) hp
  | st => exact absurd (.inr rfl) hp
  | _ => rfl

/-- Settles O8: the turn is taken off, and each timer takes one tick. -/
theorem tickDecrementsBothTimers : Obligations.TickDecrementsBothTimers := by
  unfold Obligations.TickDecrementsBothTimers
  intro s rest hl hs
  refine ⟨_, step_of_tick hl hs, tickDown_toNat s.dt, tickDown_toNat s.st, rfl, ?_⟩
  exact ((keepsBut_setSchedule s rest).mono fun _ hp => .inr (.inr hp)).trans
    ((keepsBut_tickStep _).mono fun _ hp => hp.imp_right .inl)

/-- A run of `n + 1` steps is a step and a run of `n`. -/
theorem Reaches.of_step {s s' t : State} {n : Nat} (hstep : step s = .next s') (hrun : Reaches s' n t) :
    Reaches s (n + 1) t := by
  have hcore : core.step s = .next s' := hstep
  simp only [Reaches, Host.Core.run, hcore]
  exact hrun

/-- Settles O9: by induction on the number of ticks, each of which is O8 and leaves the machine live. -/
theorem ticksNeverDriveATimerBelowZero : Obligations.TicksNeverDriveATimerBelowZero := by
  unfold Obligations.TicksNeverDriveATimerBelowZero
  intro s n rest hl hs
  induction n generalizing s with
  | zero => exact ⟨s, rfl, rfl, rfl, hs, KeepsBut.refl _ s⟩
  | succ n ih =>
    obtain ⟨s', hstep, hdt', hst', hs', hkeep'⟩ := tickDecrementsBothTimers s _ hl hs
    have hl' : s'.live = true := (State.live_congr (hkeep' .status (by simp))).trans hl
    obtain ⟨t, hrun, hdt, hst, hrest, hkeep⟩ := ih s' hl' hs'
    exact ⟨t, hrun.of_step hstep, by omega, by omega, hrest, hkeep'.trans hkeep⟩

/-! ### The key event -/

/-- The latch entry of the event's key takes the named state. -/
theorem keyDown_keyStep_same (k : Key) (e : KeyEdge) (s : State) : (keyStep k e s).keyDown k = true ↔ e = .pressed := by
  cases e <;> simp [keyStep, State.keyDown]

/-- The status of a wait changes with the press of a released key alone (R152). -/
theorem keyStep_status (k : Key) (e : KeyEdge) (s : State) :
    (keyStep k e s).status = if e = .pressed ∧ s.keyDown k = false then notePress k s.status else s.status := by
  cases e with
  | released => rfl
  | pressed => cases hk : s.keyDown k <;> simp_all [keyStep, State.keyDown]

/-- Outside a key-wait no press is recorded. -/
theorem notePress_of_not_waiting {k : Key} {st : Status} (h : ∀ x ks, st ≠ .waiting x ks) : notePress k st = st := by
  cases st with
  | waiting x ks => exact absurd rfl (h x ks)
  | _ => rfl

theorem keepsBut_keyStep (k : Key) (e : KeyEdge) (s : State) :
    KeepsBut (fun p => p = .key k ∨ p = .status) s (keyStep k e s) := by
  intro p hp
  cases p with
  | status => exact absurd (.inr rfl) hp
  | key q =>
    have hq : k.val ≠ q.val := fun h => hp (.inl (congrArg Part.key (Fin.ext h.symm)))
    cases e <;> simp [Part.Same, keyStep, State.keyDown, hq]
  | _ => cases e <;> rfl

/-- Settles O10: the latch and the status after the event; a press that joins a wait adds its key to the set. -/
theorem keyEventUpdatesLatchAndWait : Obligations.KeyEventUpdatesLatchAndWait := by
  unfold Obligations.KeyEventUpdatesLatchAndWait
  intro s k e rest hl hs
  have hstatus := keyStep_status k e { s with schedule := rest }
  refine ⟨_, step_of_keyEvent hl hs, keyDown_keyStep_same k e _, ?schedule, fun x ks hw he hup => ?joins, fun h => ?stays,
    ?frame⟩
  case schedule => cases e <;> rfl
  case joins =>
    refine ⟨insertKey k ks, ?_, fun q => mem_insertKey k q ks⟩
    rw [hstatus, if_pos ⟨he, hup⟩, hw, notePress]
  case stays =>
    rw [hstatus]
    split
    · next hpress =>
      obtain ⟨he, hup⟩ := hpress
      obtain hw | he' | hdown := h
      · exact notePress_of_not_waiting hw
      · exact nomatch he.symm.trans he'
      · exact absurd (hup.symm.trans hdown) Bool.false_ne_true
    · rfl
  case frame =>
    exact ((keepsBut_setSchedule s rest).mono fun _ hp => .inr (.inr hp)).trans
      ((keepsBut_keyStep k e _).mono fun _ hp => hp.imp_right .inl)

/-! ### The stop -/

theorem keepsBut_stopStep (s : State) : KeepsBut (fun p => p = .stop ∨ p = .status) s (stopStep s) := by
  intro p hp
  cases p with
  | stop => exact absurd (.inl rfl) hp
  | status => exact absurd (.inr rfl) hp
  | _ => rfl

/-- Settles O11: the turn is taken off, and the stop signal and the status are all that is written. -/
theorem stopHaltsAtOnce : Obligations.StopHaltsAtOnce := by
  unfold Obligations.StopHaltsAtOnce
  intro s rest hl hs
  refine ⟨_, step_of_stop hl hs, stopStep_stop _, stopStep_status _, rfl, ?_⟩
  exact ((keepsBut_setSchedule s rest).mono fun _ hp => .inr (.inr hp)).trans
    ((keepsBut_stopStep _).mono fun _ hp => hp.imp_right .inl)

end Sys2Proof.Machine
end

section
/-! Fatal conditions (60_exceptions.md R141..R144): the condition each instruction raises, said once as a function of the state,
and what is read off it. -/

namespace Sys2Proof.Machine

/-- The fatal condition an instruction raises in a state, if any (R141). -/
def Instr.raised (s : State) : Instr → Option Fatal
  | .ret => if s.stack = [] then some .stackUnderflow else none
  | .call _ => if s.params.stackCapacity = some s.sp then some .stackOverflow else none
  | .skp x | .sknp x => if 15 < (s.reg x).toNat then some (.addressOutOfRange (.key (s.reg x))) else none
  | .ldB _ => (firstBad s.iAddr 3).map fun a => .addressOutOfRange (.address a)
  | .storeRegs x | .loadRegs x => (firstBad s.iAddr (x.val + 1)).map fun a => .addressOutOfRange (.address a)
  | .drw x y n =>
    ((firstBad s.iAddr n.val).map fun a => .addressOutOfRange (.address a)).or
      ((offScreen s.params.drawCoord (drwPixels x y n s)).map fun p => .addressOutOfRange (.pixel p.1 p.2))
  | _ => none

/-- An instruction halts with the condition it raises, or raises none and makes one of its updates; it always does one of the
two. -/
theorem exec_raises_or_yields (i : Instr) (s : State) :
    (∃ r, Instr.raised s i = some r ∧ exec i s = .next (s.haltAt s.instrAddr r)) ∨
      (Instr.raised s i = none ∧ ∃ t, exec i s = .next t ∧ Instr.CanYield i s t) := by
  cases i
  case ret =>
    obtain hs | ⟨l, w, hs⟩ := List.eq_nil_or_concat s.stack
    · exact .inl ⟨_, if_pos hs, exec_ret_of_nil hs⟩
    · rw [List.concat_eq_append] at hs
      have hne : s.stack ≠ [] := by simp [hs]
      exact .inr ⟨if_neg hne, _, exec_ret_of_concat hs, _, _, rfl⟩
  case call =>
    by_cases hfull : s.params.stackCapacity = some s.sp
    · exact .inl ⟨_, if_pos hfull, exec_call_of_full hfull⟩
    · exact .inr ⟨if_neg hfull, _, exec_call_of_room hfull, _, rfl⟩
  case skp x =>
    by_cases hkey : 15 < (s.reg x).toNat
    · exact .inl ⟨_, if_pos hkey, exec_keySkip_of_no_key (.inl rfl) hkey⟩
    · exact .inr ⟨if_neg hkey, _, exec_skp_of_key (k := ⟨(s.reg x).toNat, by omega⟩) rfl, _, rfl⟩
  case sknp x =>
    by_cases hkey : 15 < (s.reg x).toNat
    · exact .inl ⟨_, if_pos hkey, exec_keySkip_of_no_key (.inr rfl) hkey⟩
    · exact .inr ⟨if_neg hkey, _, exec_sknp_of_key (k := ⟨(s.reg x).toNat, by omega⟩) rfl, _, rfl⟩
  case ldB | storeRegs =>
    simp only [Instr.raised, exec, execLdB, execStoreRegs]
    split
    · next hbad => exact .inl ⟨_, by rw [hbad]; rfl, rfl⟩
    · next hok => exact .inr ⟨by rw [hok]; rfl, _, rfl, _, rfl⟩
  case loadRegs =>
    simp only [Instr.raised, exec, execLoadRegs]
    split
    · next hbad => exact .inl ⟨_, by rw [hbad]; rfl, rfl⟩
    · next hok => exact .inr ⟨by rw [hok]; rfl, _, rfl, _, Memory.length_readList _ _ _, rfl⟩
  case drw x y n =>
    simp only [Instr.raised, exec, execDrw]
    split
    · next hbad => exact .inl ⟨_, by rw [hbad]; rfl, rfl⟩
    · next hok =>
      rw [hok, Option.map_none, Option.none_or]
      split
      · next hoff => exact .inl ⟨_, by rw [hoff]; rfl, rfl⟩
      · next hon => exact .inr ⟨by rw [hon]; rfl, _, rfl, _, _, rfl⟩
  all_goals refine .inr ⟨rfl, _, rfl, ?_⟩
  case sys | ldVxK => exact rfl
  case addReg | subReg | shr | subn | shl | rnd => exact ⟨_, _, rfl⟩
  all_goals exact ⟨_, rfl⟩

/-- An update sets no other status than an entered key-wait (R130). -/
theorem Instr.CanYield.status {i : Instr} {s t : State} (h : Instr.CanYield i s t) :
    t.status = s.status ∨ ∃ x, t.status = .waiting x [] := by
  cases i
  case sys => cases h; exact .inl rfl
  case ldVxK => cases h; exact .inr ⟨_, rfl⟩
  case ret | addReg | subReg | shr | subn | shl | rnd | drw => obtain ⟨_, _, rfl⟩ := h; exact .inl rfl
  case loadRegs => obtain ⟨_, -, rfl⟩ := h; exact .inl (State.setRegs_status _ _ _)
  case seImm | sneImm | seReg | sneReg | skp | sknp => obtain ⟨_, rfl⟩ := h; exact .inl (State.skipIf_status _ _)
  all_goals obtain ⟨_, rfl⟩ := h; exact .inl rfl

theorem Instr.CanYield.live {i : Instr} {s t : State} (hl : s.live = true) (h : Instr.CanYield i s t) : t.live = true := by
  obtain hst | ⟨x, hst⟩ := h.status
  · exact (State.live_congr hst).trans hl
  · simp only [State.live, hst]

/-- What a live machine's instruction that answers `t` has done: it halted with the condition it raises, or it raised none, made
one of its updates and lives on. -/
theorem exec_raised_cases {i : Instr} {s t : State} (hl : s.live = true) (h : exec i s = .next t) :
    (∃ r, Instr.raised s i = some r ∧ t = s.haltAt s.instrAddr r) ∨
      (Instr.raised s i = none ∧ Instr.CanYield i s t ∧ t.live = true) := by
  obtain ⟨r, hr, hexec⟩ | ⟨hr, t', hexec, hy⟩ := exec_raises_or_yields i s
  · cases h.symm.trans hexec
    exact .inl ⟨r, hr, rfl⟩
  · cases h.symm.trans hexec
    exact .inr ⟨hr, hy, hy.live hl⟩

/-- The halt record of an instruction is the condition it raises, with the address it was fetched from (R143). -/
theorem exec_halted_iff_raised {i : Instr} {s t : State} (hl : s.live = true) (h : exec i s = .next t) (r : Fatal) :
    t.status = .halted (.fatal r s.instrAddr) ↔ Instr.raised s i = some r := by
  obtain ⟨r', hr, rfl⟩ | ⟨hr, -, ht⟩ := exec_raised_cases hl h
  · simp [hr]
  · simp [hr, State.status_ne_halted_of_live ht]

/-- Settles O23: the two outcomes of an instruction are both next states. -/
theorem everyInstructionAnswersANextState : Obligations.EveryInstructionAnswersANextState := by
  unfold Obligations.EveryInstructionAnswersANextState
  intro i s
  obtain ⟨r, -, hexec⟩ | ⟨-, t, hexec, -⟩ := exec_raises_or_yields i s
  · exact ⟨_, hexec⟩
  · exact ⟨t, hexec⟩

/-- Settles O24: an instruction that raises no condition lives on, and one that raises one enters the fault alone. -/
theorem fatalConditionsArePrecise : Obligations.FatalConditionsArePrecise := by
  unfold Obligations.FatalConditionsArePrecise
  intro i s t hl h hdead
  obtain ⟨r, -, rfl⟩ | ⟨-, -, hlive⟩ := exec_raised_cases hl h
  · exact ⟨r, rfl⟩
  · exact absurd (hdead.symm.trans hlive) Bool.false_ne_true

/-! ### The table of R141 -/

/-- A failed address check of `n` bytes from I on, as the table states it. -/
theorem raised_address_iff {s : State} {n : Nat} {r : Fatal} :
    (firstBad s.iAddr n).map (fun a => .addressOutOfRange (.address a)) = some r ↔
      0 < n ∧ 0xFFF < s.i.toNat + n - 1 ∧ r = .addressOutOfRange (.address (max s.i.toNat 0x1000)) := by
  simp only [Option.map_eq_some_iff, firstBad_eq_some, memorySize, State.iAddr]
  constructor
  · rintro ⟨_, ⟨hn, hbad, rfl⟩, rfl⟩
    exact ⟨hn, by omega, rfl⟩
  · rintro ⟨hn, hbad, rfl⟩
    exact ⟨_, ⟨hn, by omega, rfl⟩, rfl⟩

/-- A passed address check of `n` bytes from I on, as the table states it. -/
theorem firstBad_iAddr_eq_none_iff {s : State} {n : Nat} :
    firstBad s.iAddr n = none ↔ n = 0 ∨ s.i.toNat + n - 1 ≤ 0xFFF := by
  rw [firstBad_eq_none, memorySize, State.iAddr]
  omega

/-- What DRW raises: the memory check comes first, the coordinate check second (R148). -/
theorem raised_drw_iff {s : State} {x y : Reg} {n : Fin 16} {r : Fatal} :
    Instr.raised s (.drw x y n) = some r ↔
      (0 < n.val ∧ 0xFFF < s.i.toNat + n.val - 1 ∧ r = .addressOutOfRange (.address (max s.i.toNat 0x1000))) ∨
      ((n.val = 0 ∨ s.i.toNat + n.val - 1 ≤ 0xFFF) ∧ s.params.drawCoord = .fault ∧
        ∃ k j, FirstSpriteOff s x y n k j ∧
          r = .addressOutOfRange (.pixel ((s.reg x).toNat + j) ((s.reg y).toNat + k))) := by
  rw [Instr.raised, Option.or_eq_some_iff, raised_address_iff, Option.map_eq_none_iff, firstBad_iAddr_eq_none_iff]
  refine or_congr_right (and_congr_right fun _ => ?_)
  rw [Option.map_eq_some_iff]
  constructor
  · rintro ⟨⟨column, row⟩, hoff, rfl⟩
    obtain ⟨hmode, k, j, hfirst, rfl, rfl⟩ := offScreen_eq_some.mp hoff
    exact ⟨hmode, k, j, hfirst, rfl⟩
  · rintro ⟨hmode, k, j, hfirst, rfl⟩
    exact ⟨_, offScreen_eq_some.mpr ⟨hmode, k, j, hfirst, rfl, rfl⟩, rfl⟩

/-- A row of the table for DRW, at a DRW. -/
theorem exists_drw_eq_iff {x y : Reg} {n : Fin 16} {P : Reg → Reg → Fin 16 → Prop} :
    (∃ x' y' n', Instr.drw x y n = .drw x' y' n' ∧ P x' y' n') ↔ P x y n := by
  constructor
  · rintro ⟨_, _, _, hi, hp⟩
    cases hi
    exact hp
  · exact fun hp => ⟨x, y, n, rfl, hp⟩

/-- Settles O25: the record is the condition the instruction raises, and that is read off row by row. -/
theorem fatalConditionsAreExactlyTheTable : Obligations.FatalConditionsAreExactlyTheTable := by
  unfold Obligations.FatalConditionsAreExactlyTheTable
  intro i s t r hl h
  refine (exec_halted_iff_raised hl h r).trans ?_
  cases i
  case ret | call | skp | sknp => simp [Instr.raised, eq_comm]
  case ldB | storeRegs | loadRegs => rw [Instr.raised, raised_address_iff]; simp
  case drw =>
    rw [raised_drw_iff]
    simp only [exists_drw_eq_iff, reduceCtorEq, or_self, false_and, exists_false, false_or]
  all_goals simp [Instr.raised]

/-- Settles O26: `Halt.code` by its cases. -/
theorem haltReasonCodes : Obligations.HaltReasonCodes :=
  ⟨rfl, fun _ _ => ⟨rfl, rfl, rfl⟩⟩

/-! ### The display strobe (R156) -/

/-- Settles O27: a fault signals none; of the updates those of CLS and DRW signal one, and the others none. -/
theorem onlyDisplayInstructionsStrobe : Obligations.OnlyDisplayInstructionsStrobe := by
  unfold Obligations.OnlyDisplayInstructionsStrobe
  intro i s t hl h
  obtain ⟨r, hr, rfl⟩ | ⟨-, hy, hlive⟩ := exec_raised_cases hl h
  · have hcls : i ≠ .cls := by
      rintro rfl
      cases hr
    simp [hcls, State.live]
  cases i
  case cls => obtain ⟨_, rfl⟩ := hy; simp
  case drw => obtain ⟨_, _, rfl⟩ := hy; simp [hlive]
  case sys | ldVxK => cases hy; simp
  case ret | addReg | subReg | shr | subn | shl | rnd => obtain ⟨_, _, rfl⟩ := hy; simp
  case loadRegs => obtain ⟨_, -, rfl⟩ := hy; simp
  all_goals obtain ⟨_, rfl⟩ := hy; simp

end Sys2Proof.Machine
end

section
/-! The endless run of a jump to itself (R161). -/

namespace Sys2Proof.Machine

/-- The interpreter alone is about to fetch `JP nnn` at address nnn. -/
structure AtSelfJump (nnn : Addr12) (s : State) : Prop where
  fetching : s.fetching = true
  alone : s.schedule = []
  inMemory : s.pc.toNat + 1 ≤ 0xFFF
  target : s.pc.toNat = nnn.toNat
  word : decode (s.mem.read s.pc.toNat ++ s.mem.read (s.pc.toNat + 1)) = .instr (.jp nnn)

/-- A jump to itself changes the status at most, from Loaded to Running (R60, R64). -/
theorem AtSelfJump.step_eq {nnn : Addr12} {s : State} (h : AtSelfJump nnn s) :
    step s = .next { s with status := .running } := by
  have htarget : zextNnn nnn = s.pc := BitVec.eq_of_toNat_eq ((zextNnn_toNat nnn).trans h.target.symm)
  rw [stepRunsTheDecodedInstruction s [] _ h.fetching (.inl ⟨h.alone, rfl⟩) h.inMemory h.word, exec, execJp, htarget,
    State.setPc, ← h.alone]

theorem AtSelfJump.running {nnn : Addr12} {s : State} (h : AtSelfJump nnn s) :
    AtSelfJump nnn { s with status := .running } :=
  { h with fetching := rfl }

/-- However long it runs, the machine is at the jump, with nothing but the status changed. -/
theorem AtSelfJump.reaches {nnn : Addr12} {s : State} (h : AtSelfJump nnn s) (n : Nat) :
    ∃ t, Reaches s n t ∧ AtSelfJump nnn t ∧ KeepsBut (fun p => p = .status) s t := by
  induction n generalizing s with
  | zero => exact ⟨s, rfl, h, KeepsBut.refl _ s⟩
  | succ n ih =>
    obtain ⟨t, hrun, ht, hkeep⟩ := ih h.running
    exact ⟨t, hrun.of_step h.step_eq, ht, (keepsBut_setStatus s _).trans hkeep⟩

theorem State.fatal_eq_false_of_fetching {s : State} (h : s.fetching = true) : s.fatal = false := by
  unfold State.fetching State.fatal at *
  split <;> simp_all

/-- Settles O15: every state of the run is at the jump, where the interpreter fetches. -/
theorem selfJumpRunsForever : Obligations.SelfJumpRunsForever := by
  unfold Obligations.SelfJumpRunsForever
  intro s nnn hf hs hpc htarget hword
  have hrun := AtSelfJump.reaches ⟨hf, hs, hpc, htarget, hword⟩
  refine ⟨fun n => ?_, fun n t ht => ?_⟩
  · obtain ⟨t, hreach, -, hkeep⟩ := hrun n
    exact ⟨t, hreach, hkeep .pc (by simp), hkeep⟩
  · obtain ⟨t', hreach, hjump, -⟩ := hrun n
    cases ht.symm.trans hreach
    exact State.fatal_eq_false_of_fetching hjump.fetching

end Sys2Proof.Machine
end

section
/-! Loading a program (70_reset_and_hazards.md R170..R172, 60_exceptions.md R147): which images reset accepts, and the state a load
leaves. -/

namespace Sys2Proof.Machine

/-- Memory after a load: the font written at 0x000, then the image at 0x200 (R172). -/
def loadedMemory (font : Vector Byte 80) (bs : List Byte) : Memory :=
  (Memory.writeList [] 0 font.toList).writeList 0x200 bs

/-- The state an accepted load leaves. -/
def loadedState (p : Params) (font : Vector Byte 80) (bs : List Byte) : State :=
  { State.reset with params := p, mem := loadedMemory font bs }

/-- All that `boot` can accept, and what it answers then. -/
theorem boot_eq_ok_iff {p : Params} {font : Vector Byte 80} {im : Image} {s : State} :
    boot p font im = .ok s ↔ ∃ bs, im = .bytes bs ∧ bs.length ≤ imageCapacity ∧ loadedState p font bs = s := by
  cases im with
  | absent | unreadable => simp [boot]
  | bytes bs =>
    by_cases hlen : bs.length ≤ imageCapacity
    · simp [boot, hlen, loadedState, loadedMemory, programBase]
    · simp [boot, hlen]

/-- Settles O30: the image is accepted in no other case than `boot_eq_ok_iff` names. -/
theorem imageAcceptedExactlyUpToCapacity : Obligations.ImageAcceptedExactlyUpToCapacity := by
  unfold Obligations.ImageAcceptedExactlyUpToCapacity
  intro p font im
  constructor
  · rintro ⟨s, h⟩
    obtain ⟨bs, him, hlen, -⟩ := boot_eq_ok_iff.mp h
    exact ⟨bs, him, hlen⟩
  · rintro ⟨bs, him, hlen⟩
    exact ⟨_, boot_eq_ok_iff.mpr ⟨bs, him, hlen, rfl⟩⟩

theorem wf_loadedMemory (font : Vector Byte 80) (bs : List Byte) : (loadedMemory font bs).wf = true :=
  Memory.wf_writeList (Memory.wf_writeList Memory.wf_nil 0 _) 0x200 _

/-- Settles O18: the reset state meets the invariant, every write keeps memory canonical, and no capacity is below the length of
the empty stack. -/
theorem bootMeetsTheInvariant : Obligations.BootMeetsTheInvariant := by
  unfold Obligations.BootMeetsTheInvariant
  intro p font im s h
  obtain ⟨bs, -, -, rfl⟩ := boot_eq_ok_iff.mp h
  exact { resetMeetsTheInvariant with
    memory := wf_loadedMemory font bs
    stackBound := (State.stackOk_iff _).mpr fun c _ => Nat.zero_le c }

/-! ### What memory holds after a load -/

/-- Below the image memory holds what the write of the font left. -/
theorem read_loadedMemory_below_image (font : Vector Byte 80) (bs : List Byte) {a : Nat} (h : a < 0x200) :
    (loadedMemory font bs).read a = (Memory.writeList [] 0 font.toList).read a :=
  Memory.read_writeList_outside _ _ _ (.inl h)

theorem read_loadedMemory_font (font : Vector Byte 80) (bs : List Byte) {a : Nat} (h : a < 80) :
    (loadedMemory font bs).read a = font[a] := by
  have hfont := Memory.read_writeList_inside [] 0 font.toList a (by simpa using h) (by simp [memorySize])
  rw [read_loadedMemory_below_image font bs (by omega)]
  simpa using hfont

/-- Above the font, and where the image does not lie, memory is as before both writes: the zero fill (D8). -/
theorem read_loadedMemory_fill (font : Vector Byte 80) (bs : List Byte) {a : Nat} (hfont : 80 ≤ a)
    (himage : a < 0x200 ∨ 0x200 + bs.length ≤ a) : (loadedMemory font bs).read a = 0 := by
  rw [loadedMemory, Memory.read_writeList_outside _ _ _ himage,
    Memory.read_writeList_outside _ _ _ (.inr (by simpa using hfont))]
  exact unlistedByte_eq_zero hfont

theorem read_loadedMemory_image (font : Vector Byte 80) (bs : List Byte) (hlen : bs.length ≤ imageCapacity) {k : Nat}
    (h : k < bs.length) : (loadedMemory font bs).read (0x200 + k) = bs[k] :=
  Memory.read_writeList_inside _ _ bs k h (Nat.add_le_add_left hlen 0x200)

theorem keepsBut_loadedState (p : Params) (font : Vector Byte 80) (bs : List Byte) :
    KeepsBut (fun q => q = .params ∨ ∃ a, q = .byte a) State.reset (loadedState p font bs) := by
  intro q hq
  cases q with
  | params => exact absurd (.inl rfl) hq
  | byte a => exact absurd (.inr ⟨a, rfl⟩) hq
  | _ => rfl

/-- Settles O31, range by range: font, zeros, image, zeros. -/
theorem bootLoadsFontAndImage : Obligations.BootLoadsFontAndImage := by
  unfold Obligations.BootLoadsFontAndImage
  intro p font bs s h
  obtain ⟨_, ⟨⟩, hlen, rfl⟩ := boot_eq_ok_iff.mp h
  exact ⟨fun a => read_loadedMemory_font font bs, fun a hlo hhi => read_loadedMemory_fill font bs hlo (.inl hhi),
    fun k => read_loadedMemory_image font bs hlen, fun a ha => read_loadedMemory_fill font bs (by omega) (.inr ha),
    rfl, keepsBut_loadedState p font bs⟩

end Sys2Proof.Machine
end
